-- ==== Sys2Proof/Word.lean ====
section
/-! DEFINITION. The word types of the block (00_scope.md R4, R6; 30_encoding.md R38, R40).

The arithmetic of rules R50 to R54 is that of `BitVec 32`: `+`, `-`, `*` wrap modulo 2^32, `^^^`, `&&&`, `|||` are bitwise,
`>>>` and `<<<` are logical with zero fill. None of them sets a flag, traps or saturates (R55). -/

namespace Sys2Proof

/-- A `u32`: a state word, a seed, a key word, an output word (R4 `W` = 32, R6). -/
abbrev U32 := BitVec 32

/-- A command word, `OP[39:32]`, `ARG[31:0]` (R38, `CW_W` = 40). -/
abbrev CmdWord := BitVec 40

/-- The `DATA` of a response (R40, `DATA_W` = 64). -/
abbrev Data := BitVec 64

end Sys2Proof
end

