-- ==== Sys2Proof/Syntax.lean ====
section
/-! DEFINITION. The four commands (30_encoding.md R37, R42), why a command word is reserved (R44), the rows of the opcode map
(R42), and a line of the textual form (R47, R48). -/

namespace Sys2Proof

/-- The commands, one per row of spec/opcode_table.json, with the operands `ARG` carries (R39, R42). The generator a command
acts on is the block itself and no operand (R37). -/
inductive Instr where
  /-- `SEED_SCALAR`, OP 0x01: `ARG` is the seed, any value (R57). -/
  | seedScalar (seed : U32)
  /-- `SEED_ARRAY`, OP 0x02: `ARG` is the key length in words, any value; 0 is refused at execution, not at decode (R39, R60). -/
  | seedArray (len : U32)
  /-- `NEXT_U32`, OP 0x03: no operand, `ARG` must be 0 (R72). -/
  | nextU32
  /-- `NEXT_F64`, OP 0x04: no operand, `ARG` must be 0 (R75). -/
  | nextF64
  deriving DecidableEq, Repr

/-- Why a command word decodes to *reserved* (R43, R44). Both give `ERR_ILLEGAL`; no rule tells them apart. -/
inductive Reserved where
  /-- `OP` is 0x00 or 0x05 to 0xFF. -/
  | unusedOpcode (op : BitVec 8)
  /-- `OP` is 0x03 or 0x04 and `ARG`, which must be 0, is not. -/
  | argNotZero (op : BitVec 8) (arg : U32)
  deriving DecidableEq, Repr

/-- A row of the opcode map of R42: a word `cw` selects it when `cw AND mask` = `pattern`. -/
structure OpcodeRow where
  pattern : CmdWord
  mask : CmdWord
  deriving DecidableEq, Repr

/-- A line of the textual form (R47: the four commands; R48: the three directives). Operands are numbers as written; whether
they are in range is `Line.wellFormed`. -/
inductive Line where
  | seedScalar (seed : Nat)
  | seedArray (len : Nat)
  | nextU32
  | nextF64
  /-- `.key w0, w1, ...`: from here on the KEY space holds these words from index 0 (R48). -/
  | key (words : List Nat)
  /-- `.word cw`: present the 40-bit command word as it stands (R48). -/
  | word (cw : Nat)
  /-- `.reset`: a reset (R48, R93). -/
  | reset
  deriving DecidableEq, Repr

end Sys2Proof
end

