-- ==== Sys2Proof/WellFormed.lean ====
section
/-! DEFINITION. Which commands and which lines of text are well formed.

An `Instr` carries its operand as a 32-bit word, and every 32-bit value is a legal operand of both seeding commands (R39,
R42), so no command is ill formed. A `Line` carries numbers, and "an operand outside its range is an error of the text, not a
command" (R47): those are the checks. -/

namespace Sys2Proof

/-- Every command is well formed: `seed` and the key length take all 2^32 values (R39). -/
def Instr.wellFormed : Instr → Bool
  | .seedScalar _ => true
  | .seedArray _ => true
  | .nextU32 => true
  | .nextF64 => true

/-- The operand ranges of R47 (`u32` operands) and R48 (`u32` key words, at least `w0`; a 40-bit word for `.word`). -/
def Line.wellFormed : Line → Bool
  | .seedScalar seed => decide (seed < 2 ^ 32)
  | .seedArray len => decide (len < 2 ^ 32)
  | .nextU32 => true
  | .nextF64 => true
  | .key words => !words.isEmpty && words.all (fun w => decide (w < 2 ^ 32))
  | .word cw => decide (cw < 2 ^ 40)
  | .reset => true

end Sys2Proof
end

