-- ==== Sys2Proof/Decode.lean ====
section
/-! DEFINITION. Decoding a command word, total on all 2^40 words (30_encoding.md R38, R42 to R45), and the encoder. Decoding
reads no state (R43). -/

namespace Sys2Proof

/-- `OP` = `cw[39:32]` (R38). -/
def opField (cw : CmdWord) : BitVec 8 := cw.extractLsb' 32 8

/-- `ARG` = `cw[31:0]`, used as it stands (R38, R39). -/
def argField (cw : CmdWord) : U32 := cw.extractLsb' 0 32

/-- `decode` of R43. A word that is none of the four commands is reserved (R44), by name. -/
def decode (cw : CmdWord) : Except Reserved Instr :=
  let op := opField cw
  let arg := argField cw
  if op = 0x01#8 then .ok (.seedScalar arg)
  else if op = 0x02#8 then .ok (.seedArray arg)
  else if op = 0x03#8 then (if arg = 0#32 then .ok .nextU32 else .error (.argNotZero op arg))
  else if op = 0x04#8 then (if arg = 0#32 then .ok .nextF64 else .error (.argNotZero op arg))
  else .error (.unusedOpcode op)

/-- The opcode of a command (R42). -/
def opcodeOf : Instr → BitVec 8
  | .seedScalar _ => 0x01#8
  | .seedArray _ => 0x02#8
  | .nextU32 => 0x03#8
  | .nextF64 => 0x04#8

/-- The `ARG` of a command (R39): the seed, the key length, or 0. -/
def argOf : Instr → U32
  | .seedScalar seed => seed
  | .seedArray len => len
  | .nextU32 => 0#32
  | .nextF64 => 0#32

/-- The command word of a command: `OP` above `ARG` (R38). -/
def encode (i : Instr) : CmdWord := opcodeOf i ++ argOf i

/-- The row of the opcode map a command belongs to, written from the table of R42. -/
def opcodeRow : Instr → OpcodeRow
  | .seedScalar _ => ⟨0x0100000000#40, 0xFF00000000#40⟩
  | .seedArray _ => ⟨0x0200000000#40, 0xFF00000000#40⟩
  | .nextU32 => ⟨0x0300000000#40, 0xFFFFFFFFFF#40⟩
  | .nextF64 => ⟨0x0400000000#40, 0xFFFFFFFFFF#40⟩

/-- The four rows of the opcode map in the order of R42. -/
def opcodeMap : List OpcodeRow :=
  [opcodeRow (.seedScalar 0#32), opcodeRow (.seedArray 0#32), opcodeRow .nextU32, opcodeRow .nextF64]

/-- A word selects a row when `cw AND mask` = `match` (R42). -/
def selects (cw : CmdWord) (r : OpcodeRow) : Bool := cw &&& r.mask == r.pattern

/-- The command word whose low `nbits` bits are `w` and whose other bits are 0. A command is one word of 40 bits and the ports
carry whole words, so no byte order arises (R28, R38, R45). -/
def commandWord (nbits w : Nat) : CmdWord := BitVec.ofNat 40 (w % 2 ^ nbits)

/-- What the decoder reads from an instruction of the opcode table whose bits are `w`. -/
def decodeTableWord (nbits w : Nat) : Option Instr := (decode (commandWord nbits w)).toOption

end Sys2Proof
end

