-- ==== Sys2Proof/Config.lean ====
section
/-! DEFINITION. The parameters of the block (00_scope.md R4) and its free values, the values the spec leaves unspecified
(93_implementation_defined.md U5, U6). `LAT_*` of R4 has no counterpart: the model has no time (U7).

A free value is an opaque constant without a body: nothing can be proved of which value it is. -/

namespace Sys2Proof

/-- `MATRIX_A`, the XOR mask of the twist (R4). -/
abbrev Config.matrixA : U32 := 0x9908B0DF#32
/-- `UPPER_MASK`, bit 31 (R4). -/
abbrev Config.upperMask : U32 := 0x80000000#32
/-- `LOWER_MASK`, bits 30 to 0 (R4). -/
abbrev Config.lowerMask : U32 := 0x7FFFFFFF#32
/-- `INIT_MULT`, the multiplier of scalar seeding (R4). -/
abbrev Config.initMult : U32 := 1812433253#32
/-- `ARRAY_BASE_SEED`, the scalar seed array seeding starts from (R4). -/
abbrev Config.arrayBaseSeed : U32 := 19650218#32
/-- `MIX1_MULT`, the multiplier of the first mixing pass (R4). -/
abbrev Config.mix1Mult : U32 := 1664525#32
/-- `MIX2_MULT`, the multiplier of the second mixing pass (R4). -/
abbrev Config.mix2Mult : U32 := 1566083941#32
/-- `FORCED_MT0`, forced into word 0 by array seeding (R4). -/
abbrev Config.forcedMt0 : U32 := 0x80000000#32
/-- `TEMPER_B`, the first tempering mask (R4). -/
abbrev Config.temperB : U32 := 0x9D2C5680#32
/-- `TEMPER_C`, the second tempering mask (R4). -/
abbrev Config.temperC : U32 := 0xEFC60000#32

/-- FREE VALUE (log entry 3, DESIGN CHOICE): what word `i` of `mt` holds after reset number `n`. R21 and R93 leave it
unspecified and forbid choosing it. -/
opaque Config.resetWord (n i : Nat) : U32

/-- FREE VALUE (log entry 3, DESIGN CHOICE): what `index` holds after reset number `n` (R21, R93). -/
opaque Config.resetIndex (n : Nat) : BitVec 10

/-- FREE VALUE (log entry 5, DESIGN CHOICE): what key read number `n` answers for word index `j` when the host has supplied
no stable word there: any `u32`, fresh at each read (R26, R33, U6). -/
opaque Config.unstableKeyWord (n j : Nat) : U32

end Sys2Proof
end

