-- ==== Sys2Proof/Machine/State.lean ====
section
/-! DEFINITION. The state of the machine as plain data (10_state.md), the reasons a step can stop, and the state after reset. -/

namespace Sys2Proof.Machine

/-- The state vector `mt[0]` to `mt[623]`, 624 words of 32 bits (R10). -/
abbrev Mt := Vector U32 624

/-- The KEY space (R24, R25): 32-bit words by word index, strictly rising, and only words the host has supplied. The unit
of addressing is the 32-bit word (R25, R28), so a cell holds a word, not a byte (log entry 5). -/
abbrev Memory := List (Nat × U32)

/-- The canonical form of the KEY space: word indices strictly rising. A word not listed has no value of its own, so no entry
can equal what an unlisted index holds. -/
def Memory.wf : Memory → Bool
  | [] => true
  | [_] => true
  | (a, _) :: (b, w) :: m => decide (a < b) && Memory.wf ((b, w) :: m)

/-- `STATUS` of a response: all four values of the 2-bit field (R41). -/
inductive Status where
  | ok
  | errIllegal
  | errUnseeded
  | errEmptyKey
  deriving DecidableEq, Repr

/-- A response `(STATUS, DATA)` (R40). -/
structure Response where
  status : Status
  data : Data
  deriving DecidableEq, Repr

/-- What the host does to the block (R92, R103, R104), one item a step. -/
inductive Input where
  /-- Present a command word (R38, R46). -/
  | command (cw : CmdWord)
  /-- Set the KEY space to these words from index 0 on; no other word is supplied then (R48, `.key`). -/
  | key (words : List U32)
  /-- Change one word of the KEY space between commands (R97). -/
  | keyWord (j : Nat) (w : U32)
  /-- Request a reset (R92, R93). A reset that cuts a command short has the same effect, and the cut command none (R94). -/
  | reset
  deriving DecidableEq, Repr

/-- The three errors of the block, all there are (R84). The block answers each with an error RESPONSE and goes on (R85, R86),
so `step` never ends in a fault: a command's meaning raises it as a next state (log entry 1).
`Sys2Proof.Safety.strictStep` is the reading of R85's last sentence, in which an error response is a fault outcome. -/
inductive Fault where
  /-- `ERR_ILLEGAL` (R81). Raised by `acceptCommand` on a reserved word, as a response; a fault outcome only in
  `Safety.strictStep`. Safe: the strict reading stops where the block goes on. -/
  | errIllegal
  /-- `ERR_UNSEEDED` (R82). Raised by `execNextU32` and `execNextF64` when `SEEDED` = 0, as a response; a fault outcome only
  in `Safety.strictStep`. Safe, as above. -/
  | errUnseeded
  /-- `ERR_EMPTY_KEY` (R83). Raised by `execSeedArray` when the key length is 0, as a response; a fault outcome only in
  `Safety.strictStep`. Safe, as above. -/
  | errEmptyKey
  deriving DecidableEq, Repr

/-- Why the model gives a step no meaning. -/
inductive Refusal where
  /-- An instruction without a meaning yet, raised by `exec`'s arm. No arm uses it. Safe: it stops. -/
  | notModelled (mnemonic : String)
  /-- `SEEDED` = 1 and `index` is 625 to 1023, raised by `execNextU32` and `execNextF64`. "The model should `refuse` such a
  state ... and not give `mt[index]` a meaning for it" (U9). No reachable state is one (R11). Safe: it stops. -/
  | illFormedIndex
  deriving DecidableEq, Repr

/-- The state. `mt`, `index` and `seeded` are the architectural state, all there is (R9). The other fields are what R16 calls
inputs and outputs of a step, kept here because a step has no other place for them (log entry 2), and one counter of the
model's own. -/
structure State where
  /-- The state vector (R10). -/
  mt : Mt
  /-- The 10-bit index register (R11). -/
  index : BitVec 10
  /-- The flag `SEEDED` (R12). -/
  seeded : Bool
  /-- The KEY space, owned by the host (R24, R25). -/
  key : Memory
  /-- The word indices presented on the key port so far, oldest first (R26, R27). -/
  keyReads : List Nat
  /-- What the host does next, in order (R103). -/
  inputs : List Input
  /-- The responses given so far, oldest first: R103's trace. -/
  trace : List Response
  /-- THE MODEL'S OWN: the number of resets so far, which selects the free contents of the next one (log entry 3). -/
  resets : Nat
  deriving DecidableEq, Repr

/-- The contents of `mt` after reset number `n`: 624 free values (R21, R93, U5; log entry 3). -/
@[irreducible] def resetMt (n : Nat) : Mt :=
  ⟨((List.range 624).map (Config.resetWord n)).toArray, by simp⟩

/-- The machine right after power-on, which is a reset (R21, R92, R93): `SEEDED` = 0, `mt` and `index` unspecified, nothing
presented by the host, nothing answered. -/
def State.reset : State where
  mt := resetMt 0
  index := Config.resetIndex 0
  seeded := false
  key := []
  keyReads := []
  inputs := []
  trace := []
  resets := 1

end Sys2Proof.Machine
end

