-- ==== Sys2Proof/Machine/Flags.lean ====
section
/-! DEFINITION. The only flag is `SEEDED` (10_state.md R12). No arithmetic operation sets a flag (40_seeder.md R55): there is
no carry, overflow, zero or sign flag to compute. -/

namespace Sys2Proof.Machine

/-- What an extraction tests first: `SEEDED` = 0 (R72, R75, R82). -/
def isUnseeded (s : State) : Bool := !s.seeded

/-- The end of a successful seeding: `index <- 624`, `SEEDED <- 1` (R57, R60). -/
def markSeeded (s : State) : State := { s with index := 624#10, seeded := true }

end Sys2Proof.Machine
end

