-- ==== Sys2Proof/Machine/Operands.lean ====
section
/-! DEFINITION. The operand and result forms. The one operand form is `ARG` as it stands (30_encoding.md R39): a seed, or a
key length. The results are the zero-extended word of `NEXT_U32` and the binary64 pattern of `NEXT_F64` (R40). -/

namespace Sys2Proof.Machine

/-- `ARG` as a key length `L`, a number of words (R39). -/
def keyLength (len : U32) : Nat := len.toNat

/-- `zext_64` (R7): the result of `NEXT_U32` in `DATA[31:0]`, zeros above (R40). -/
def zext64 (r : U32) : Data := r.setWidth 64

/-- `n` = `a` × 2^26 + `b` from the two draws, `a` = `r1 >> 5` and `b` = `r2 >> 6`, exact in the integers (R73, R75). -/
def f64Numerator (r1 r2 : U32) : Nat := 2 ^ 26 * (r1 >>> 5).toNat + (r2 >>> 6).toNat

/-- `F64BITS(n)` of R74, the binary64 pattern of `n` / 2^53: sign 0, `E` = 970 + `p`, `F` = (`n` − 2^`p`) × 2^(52 − `p`), where
2^`p` is the largest power of two not above `n`. -/
def f64Bits (n : Nat) : Data :=
  if n = 0 then 0#64
  else
    let p := Nat.log2 n
    0#1 ++ BitVec.ofNat 11 (970 + p) ++ BitVec.ofNat 52 ((n - 2 ^ p) * 2 ^ (52 - p))

end Sys2Proof.Machine
end

