-- ==== Sys2Proof/Machine/Ops.lean ====
section
/-! DEFINITION. The named operations on the state: words of `mt`, the KEY space, the response, raising an error, reset. -/

namespace Sys2Proof.Machine

/-- `mt[i]` (R7). A word number is always 0 to 623 (R79). -/
def Mt.word (mt : Mt) (i : Fin 624) : U32 := mt[i]

/-- `mt[i] <- w` (R7). -/
def Mt.setWord (mt : Mt) (i : Fin 624) (w : U32) : Mt := mt.set i w

/-- The word the host has supplied at index `j`, if any. -/
def Memory.read? : Memory → Nat → Option U32
  | [], _ => none
  | (a, w) :: m, j => if a = j then some w else Memory.read? m j

/-- The host puts `w` at index `j` of the KEY space, keeping the canonical form. The block itself never writes (R26). -/
def Memory.write : Memory → Nat → U32 → Memory
  | [], j, w => [(j, w)]
  | (a, v) :: m, j, w =>
    if j < a then (j, w) :: (a, v) :: m
    else if j = a then (j, w) :: m
    else (a, v) :: Memory.write m j w

/-- The KEY space that holds these words from index `j` on, and no others. -/
def Memory.ofWords : Nat → List U32 → Memory
  | _, [] => []
  | j, w :: ws => (j, w) :: Memory.ofWords (j + 1) ws

/-- `KeyRead(j)` (R26), where `reads` are the key reads made before it. It cannot fail. A word the host has supplied is
answered as it stands, and does not change during a command (R33); for any other the answer is any word, fresh at each read
(U6; log entry 5). -/
def keyRead (key : Memory) (reads : List Nat) (j : Nat) : U32 :=
  (key.read? j).getD (Config.unstableKeyWord reads.length j)

/-- `respond(STATUS, DATA)` (R7, R40): the one response a command ends with. -/
def respond (st : Status) (d : Data) (s : State) : State :=
  { s with trace := s.trace ++ [⟨st, d⟩] }

/-- The `STATUS` of an error (R81 to R83). -/
def faultStatus : Fault → Status
  | .errIllegal => .errIllegal
  | .errUnseeded => .errUnseeded
  | .errEmptyKey => .errEmptyKey

/-- The 2-bit code of a `STATUS` (R41). -/
def statusCode : Status → BitVec 2
  | .ok => 0#2
  | .errIllegal => 1#2
  | .errUnseeded => 2#2
  | .errEmptyKey => 3#2

/-- `raise E` (R7, R85), what stands for taking an exception: the response is (code of `E`, 0), and nothing is saved and
nothing is changed. There is no return from it: the next command runs as after a success (R86). -/
def raise (e : Fault) (s : State) : State := respond (faultStatus e) 0#64 s

/-- Reset (R93): `SEEDED <- 0`, `mt` and `index` unspecified, no response. -/
def applyReset (s : State) : State :=
  { s with
    mt := resetMt s.resets
    index := Config.resetIndex s.resets
    seeded := false
    resets := s.resets + 1 }

end Sys2Proof.Machine
end

