-- ==== Sys2Proof/Machine/Regeneration.lean ====
section
/-! DEFINITION. The regeneration controller: `TWIST` and `REGEN` (41_regeneration.md). No command of its own (R63). -/

namespace Sys2Proof.Machine

/-- `y` of R64: bit 31 of `u` over bits 30 to 0 of `v`. -/
def twistY (u v : U32) : U32 := (u &&& Config.upperMask) ||| (v &&& Config.lowerMask)

/-- `TWIST(u, v, w)` (R64). -/
def twist (u v w : U32) : U32 :=
  let y := twistY u v
  w ^^^ (y >>> 1) ^^^ (if y.getLsbD 0 then Config.matrixA else 0#32)

/-- Iteration `i` of `REGEN` (R65), in place. The sums of word numbers are modulo 624, as `Fin 624` adds. -/
def regenCell (i : Fin 624) (mt : Mt) : Mt :=
  mt.setWord i (twist (mt.word i) (mt.word (i + 1)) (mt.word (i + 397)))

/-- The loop of `REGEN` (R65): `i` = 0, 1, ..., 623 in this order, each iteration reading words as they are at that moment. -/
@[irreducible] def regenMt (mt : Mt) : Mt := Nat.fold 624 (fun i h mt => regenCell ⟨i, h⟩ mt) mt

/-- The loop of `REGEN` split in three, without `mod` (R66). -/
@[irreducible] def regenMtSplit (mt : Mt) : Mt :=
  let mt := Nat.fold 227
    (fun i h mt => mt.setWord ⟨i, by omega⟩
      (twist (mt.word ⟨i, by omega⟩) (mt.word ⟨i + 1, by omega⟩) (mt.word ⟨i + 397, by omega⟩))) mt
  let mt := Nat.fold 396
    (fun k h mt => mt.setWord ⟨k + 227, by omega⟩
      (twist (mt.word ⟨k + 227, by omega⟩) (mt.word ⟨k + 228, by omega⟩) (mt.word ⟨k, by omega⟩))) mt
  mt.setWord 623 (twist (mt.word 623) (mt.word 0) (mt.word 396))

/-- `REGEN` (R65): the whole vector, then `index <- 0`. `SEEDED` is not touched and the KEY space not read. -/
def regen (s : State) : State := { s with mt := regenMt s.mt, index := 0#10 }

end Sys2Proof.Machine
end

