-- ==== Sys2Proof/Machine/Extraction.lean ====
section
/-! DEFINITION. The tempering pipeline, the draw, and the commands `NEXT_U32` and `NEXT_F64` (42_extraction.md). -/

namespace Sys2Proof.Machine

/-- `TEMPER(y)` (R69): four stages, each on the result of the one before. A pure function (R70). -/
def temper (y0 : U32) : U32 :=
  let y1 := y0 ^^^ (y0 >>> 11)
  let y2 := y1 ^^^ ((y1 <<< 7) &&& Config.temperB)
  let y3 := y2 ^^^ ((y2 <<< 15) &&& Config.temperC)
  y3 ^^^ (y3 >>> 18)

/-- `if index == 624: REGEN()` (R63, R71): the only place a regeneration happens. -/
def refill (s : State) : State := if s.index = 624#10 then regen s else s

/-- `DRAW()` (R71): regenerate if exhausted, read `mt[index]`, increment `index`, temper. `none` where `index` is no word number,
a state the model gives no meaning (U9). -/
def draw (s : State) : Option (U32 × State) :=
  let t := refill s
  if h : t.index.toNat < 624 then
    some (temper (t.mt.word ⟨t.index.toNat, h⟩), { t with index := t.index + 1#10 })
  else none

/-- `NEXT_U32` (R72). -/
def execNextU32 (s : State) : Host.Outcome State Fault Refusal :=
  if isUnseeded s then .next (raise .errUnseeded s)
  else
    match draw s with
    | none => .refused .illFormedIndex
    | some (r, t) => .next (respond .ok (zext64 r) t)

/-- `NEXT_F64` (R75): two draws, the first supplying the high part. -/
def execNextF64 (s : State) : Host.Outcome State Fault Refusal :=
  if isUnseeded s then .next (raise .errUnseeded s)
  else
    match draw s with
    | none => .refused .illFormedIndex
    | some (r1, t) =>
      match draw t with
      | none => .refused .illFormedIndex
      | some (r2, u) => .next (respond .ok (f64Bits (f64Numerator r1 r2)) u)

end Sys2Proof.Machine
end

