-- ==== Sys2Proof/Machine/Seeder.lean ====
section
/-! DEFINITION. The seeder: `SCALAR_INIT`, `MIX1`, `MIX2`, and the commands `SEED_SCALAR` and `SEED_ARRAY` (40_seeder.md). -/

namespace Sys2Proof.Machine

/-- `p XOR (p >> 30)`, the term all three recurrences share (R56, R58, R59). -/
def scramble (p : U32) : U32 := p ^^^ (p >>> 30)

/-- One step of the scalar recurrence: `mt[i]` from `p` = `mt[i−1]` (R56). -/
def scalarNext (p : U32) (i : Nat) : U32 := Config.initMult * scramble p + BitVec.ofNat 32 i

/-- `SCALAR_INIT(s)` (R56): `mt[0] <- s`, then `i` = 1, 2, ..., 623 in this order, each from the word just written. -/
@[irreducible] def scalarInit (seed : U32) (mt : Mt) : Mt :=
  Nat.fold 623
    (fun k h mt => mt.setWord ⟨k + 1, by omega⟩ (scalarNext (mt.word ⟨k, by omega⟩) (k + 1)))
    (mt.setWord 0 seed)

/-- The vector and the word number `i` of a mixing pass, transient inside a command (R20). -/
structure Cursor where
  mt : Mt
  i : Fin 624
  deriving DecidableEq, Repr

/-- The transient values of `MIX1` (R20, R58): the cursor, the key index `j`, and the key reads made so far. -/
structure Mix1 where
  cur : Cursor
  j : Nat
  reads : List Nat
  deriving DecidableEq, Repr

/-- `i = i + 1 ; if i >= 624: mt[0] <- mt[623] ; i = 1`, the wrap rule of both passes (R58, R59). -/
def Cursor.advance (c : Cursor) : Cursor :=
  if h : c.i.val + 1 < 624 then { c with i := ⟨c.i.val + 1, h⟩ }
  else { mt := c.mt.setWord 0 (c.mt.word 623), i := 1 }

/-- One iteration of `MIX1(L)` (R58; D16): transform `mt[i]`, then advance `i` and `j`, then the wrap of `i`, then that of `j`. -/
def mix1Step (key : Memory) (len : Nat) (m : Mix1) : Mix1 :=
  let mt := m.cur.mt
  let i := m.cur.i
  let p := mt.word (i - 1)
  let w := ((mt.word i ^^^ (Config.mix1Mult * scramble p)) + keyRead key m.reads m.j) + BitVec.ofNat 32 m.j
  { cur := Cursor.advance { mt := mt.setWord i w, i := i }
    j := if m.j + 1 ≥ len then 0 else m.j + 1
    reads := m.reads ++ [m.j] }

/-- `MIX1(L)` (R58): `max(624, L)` iterations from `i` = 1, `j` = 0. Its end holds the `i` for `MIX2`. -/
@[irreducible] def mix1 (key : Memory) (reads : List Nat) (len : Nat) (mt : Mt) : Mix1 :=
  (mix1Step key len)^[max 624 len] { cur := { mt := mt, i := 1 }, j := 0, reads := reads }

/-- One iteration of `MIX2` (R59). The subtracted `i` is the word number. -/
def mix2Step (c : Cursor) : Cursor :=
  let p := c.mt.word (c.i - 1)
  let w := (c.mt.word c.i ^^^ (Config.mix2Mult * scramble p)) - BitVec.ofNat 32 c.i.val
  Cursor.advance { mt := c.mt.setWord c.i w, i := c.i }

/-- `MIX2(i)` (R59): 623 iterations from the `i` that `MIX1` ended on, not set back to 1 (D16). -/
@[irreducible] def mix2 (c : Cursor) : Cursor := mix2Step^[623] c

/-- `SEED_SCALAR` (R57). -/
def execSeedScalar (seed : U32) (s : State) : Host.Outcome State Fault Refusal :=
  .next (respond .ok 0#64 (markSeeded { s with mt := scalarInit seed s.mt }))

/-- Steps 1 to 4 of `SEED_ARRAY` (R60), for a key length of at least 1. -/
def arraySeed (len : Nat) (s : State) : State :=
  let m := mix1 s.key s.keyReads len (scalarInit Config.arrayBaseSeed s.mt)
  { s with mt := (mix2 m.cur).mt.setWord 0 Config.forcedMt0, keyReads := m.reads }

/-- `SEED_ARRAY` (R60): a key length of 0 raises `ERR_EMPTY_KEY` before anything is read or written (R83). -/
def execSeedArray (len : U32) (s : State) : Host.Outcome State Fault Refusal :=
  if keyLength len = 0 then .next (raise .errEmptyKey s)
  else .next (respond .ok 0#64 (markSeeded (arraySeed (keyLength len) s)))

end Sys2Proof.Machine
end

