-- ==== Sys2Proof/Machine/Dispatch.lean ====
section
/-! DEFINITION. One arm per command of the opcode map (30_encoding.md R42), each one call of its meaning. -/

namespace Sys2Proof.Machine

def exec (i : Instr) (s : State) : Host.Outcome State Fault Refusal :=
  match i with
  | .seedScalar seed => Sys2Proof.Machine.execSeedScalar seed s
  | .seedArray len => Sys2Proof.Machine.execSeedArray len s
  | .nextU32 => Sys2Proof.Machine.execNextU32 s
  | .nextF64 => Sys2Proof.Machine.execNextF64 s

end Sys2Proof.Machine
end

