-- ==== Sys2Proof/Machine/Accept.lean ====
section
/-! DEFINITION. What the block does with one thing the host sends (70_reset_and_hazards.md R92, R104). -/

namespace Sys2Proof.Machine

/-- A command word is accepted: decode first, and a reserved word is `ERR_ILLEGAL` whatever the state (R44, R81, R87); then the
command. -/
def acceptCommand (cw : CmdWord) (s : State) : Host.Outcome State Fault Refusal :=
  match decode cw with
  | .ok i => exec i s
  | .error _ => .next (raise .errIllegal s)

/-- One input of the host. Setting or changing key words acts on the host's memory alone (R48, R97). -/
def acceptInput (x : Input) (s : State) : Host.Outcome State Fault Refusal :=
  match x with
  | .command cw => acceptCommand cw s
  | .key words => .next { s with key := Memory.ofWords 0 words }
  | .keyWord j w => .next { s with key := s.key.write j w }
  | .reset => .next (applyReset s)

/-- The next thing the host does, taken off its list; with nothing to do the block holds its state (R91, R96). -/
def advance (s : State) : Host.Outcome State Fault Refusal :=
  match s.inputs with
  | [] => .next s
  | x :: rest => acceptInput x { s with inputs := rest }

/-- The host presents the word `cw` next. -/
def presentNext (cw : CmdWord) (s : State) : State := { s with inputs := .command cw :: s.inputs }

/-- The host will do these things after what it has listed already (R103). -/
def presentAfter (xs : List Input) (s : State) : State := { s with inputs := s.inputs ++ xs }

end Sys2Proof.Machine
end

