-- ==== Sys2Proof/Machine/Step.lean ====
section
/-! DEFINITION. One step of the machine: one input of the host from start to end (00_scope.md R5). -/

namespace Sys2Proof.Machine

/-- One step (R5). -/
def step (s : State) : Host.Outcome State Fault Refusal := advance s

/-- `s` with the instruction of the opcode table whose bits are `w` as the command word the host presents next (R46). -/
def State.withFetchWord (s : State) (nbits w : Nat) : State := presentNext (commandWord nbits w) s

end Sys2Proof.Machine
end

