-- ==== Sys2Proof/Machine/Text.lean ====
section
/-! DEFINITION. The textual form of commands and directives (30_encoding.md R47, R48): reading a line, and what the host does
on it. Text is a list of characters. -/

namespace Sys2Proof.Machine

/-- The value of a digit in base 16. -/
def digitValue (c : Char) : Option Nat :=
  let n := c.toNat
  if 48 ≤ n ∧ n ≤ 57 then some (n - 48)
  else if 97 ≤ n ∧ n ≤ 102 then some (n - 87)
  else if 65 ≤ n ∧ n ≤ 70 then some (n - 55)
  else none

/-- The digits `ds` in base `base`, after a number `acc`. -/
def digitsValue (base : Nat) : Nat → List Char → Option Nat
  | acc, [] => some acc
  | acc, d :: ds =>
    match digitValue d with
    | none => none
    | some v => if v < base then digitsValue base (acc * base + v) ds else none

/-- An operand: "in decimal or in hexadecimal with `0x`" (R47). The underscore with which R38 writes a command word
(0x03_00000007) is no digit here, so a line with one is refused: R47 and R48 do not say (DESIGN CHOICE, safe; log entry 10). -/
def numeral : List Char → Option Nat
  | [] => none
  | '0' :: 'x' :: [] => none
  | '0' :: 'x' :: d :: ds => digitsValue 16 0 (d :: ds)
  | ds => digitsValue 10 0 ds

/-- A word read so far, put before the words after it. -/
def pushToken (acc : List Char) (rest : List (List Char)) : List (List Char) :=
  if acc.isEmpty then rest else acc :: rest

/-- The words of a line; a comma is a word of its own, and a comment runs "from `;` to the end of the line" (R47). -/
def tokens : List Char → List Char → List (List Char)
  | acc, [] => pushToken acc []
  | acc, c :: cs =>
    if c = ';' then pushToken acc []
    else if c = ' ' ∨ c = '\t' then pushToken acc (tokens [] cs)
    else if c = ',' then pushToken acc ([','] :: tokens [] cs)
    else tokens (acc ++ [c]) cs

/-- `w0, w1, ..., w(n−1)` (R48). -/
def numeralList : List (List Char) → Option (List Nat)
  | [] => none
  | [w] => (numeral w).map fun n => [n]
  | w :: [','] :: ws =>
    match numeral w, numeralList ws with
    | some n, some ns => some (n :: ns)
    | _, _ => none
  | _ :: _ :: _ => none

/-- A line without operand: `next_u32`, `next_f64`, `.reset` (R47, R48). -/
def plainLine (m : List Char) : Option Line :=
  if m = ['n', 'e', 'x', 't', '_', 'u', '3', '2'] then some .nextU32
  else if m = ['n', 'e', 'x', 't', '_', 'f', '6', '4'] then some .nextF64
  else if m = ['.', 'r', 'e', 's', 'e', 't'] then some .reset
  else none

/-- A line with operands: `seed_scalar`, `seed_array`, `.word`, `.key` (R47, R48). -/
def operandLine (m : List Char) (ops : List (List Char)) : Option Line :=
  match numeralList ops with
  | none => none
  | some ns =>
    if m = ['.', 'k', 'e', 'y'] then some (.key ns)
    else
      match ns with
      | [n] =>
        if m = ['s', 'e', 'e', 'd', '_', 's', 'c', 'a', 'l', 'a', 'r'] then some (.seedScalar n)
        else if m = ['s', 'e', 'e', 'd', '_', 'a', 'r', 'r', 'a', 'y'] then some (.seedArray n)
        else if m = ['.', 'w', 'o', 'r', 'd'] then some (.word n)
        else none
      | _ => none

/-- A line of text: `some none` for a line without words, `none` for one that is no command and no directive; an operand out of
range is an error of the text (R47). -/
def readLine (cs : List Char) : Option (Option Line) :=
  match tokens [] cs with
  | [] => some none
  | [m] =>
    match plainLine m with
    | some l => some (some l)
    | none => none
  | m :: op :: ops =>
    match operandLine m (op :: ops) with
    | some l => if l.wellFormed then some (some l) else none
    | none => none

/-- The lines of a text, "one command per line" (R47), read one after another. `cur` is the line read so far. -/
def readText : List Char → List Char → Option (List Line)
  | cur, [] => (readLine cur).map fun l => l.toList
  | cur, c :: cs =>
    if c = '\n' then
      match readLine cur, readText [] cs with
      | some l, some ls => some (l.toList ++ ls)
      | _, _ => none
    else readText (cur ++ [c]) cs

/-- What the host does on a well-formed line: the command words of R47, the directives of R48. -/
def assemble (l : Line) : Option Input :=
  if l.wellFormed then
    match l with
    | .seedScalar seed => some (.command (encode (.seedScalar (BitVec.ofNat 32 seed))))
    | .seedArray len => some (.command (encode (.seedArray (BitVec.ofNat 32 len))))
    | .nextU32 => some (.command (encode .nextU32))
    | .nextF64 => some (.command (encode .nextF64))
    | .key words => some (.key (words.map (BitVec.ofNat 32)))
    | .word cw => some (.command (BitVec.ofNat 40 cw))
    | .reset => some .reset
  else none

/-- A program text as what the host does, line after line (R47, R48, R103). -/
def assembleText (cs : List Char) : Option (List Input) :=
  match readText [] cs with
  | none => none
  | some ls => ls.mapM assemble

end Sys2Proof.Machine
end

