-- ==== Sys2Proof/Safety.lean ====
section
/-! DEFINITION. What the claims speak of: the states the spec calls legal (10_state.md R11, R13, R22), a step in which an error
response is a fault (60_exceptions.md R85), and what the host can see of a state (R21, R23). -/

namespace Sys2Proof.Safety

open Sys2Proof Sys2Proof.Machine

/-- `index` is 0 to 624 whenever `SEEDED` is 1 (R11, R13 (e)). -/
abbrev IndexLegal (s : State) : Prop := s.seeded = true → s.index.toNat ≤ 624

/-- The part of the vector that the regeneration reads, bit 31 of `mt[0]` and the words 1 to 623, is not all zero (R22). -/
abbrev UsedPartNonzero (mt : Mt) : Prop :=
  (mt.word 0).getLsbD 31 = true ∨ ∃ i : Fin 624, i ≠ 0 ∧ mt.word i ≠ 0#32

/-- That part is not all zero whenever `SEEDED` is 1 (R22). -/
abbrev Nondegenerate (s : State) : Prop := s.seeded = true → UsedPartNonzero s.mt

/-- The KEY space is in its canonical form. -/
abbrev KeyCanonical (s : State) : Prop := s.key.wf = true

/-- The legal states: what the rules call legal, in one place. -/
abbrev Inv (s : State) : Prop := IndexLegal s ∧ Nondegenerate s ∧ KeyCanonical s

/-- The response a step from `s` to `t` gave, if any. -/
def newResponse (s t : State) : Option Response := t.trace[s.trace.length]?

/-- The error a status stands for, if any (R41). -/
def errorOf : Status → Option Fault
  | .ok => none
  | .errIllegal => some .errIllegal
  | .errUnseeded => some .errUnseeded
  | .errEmptyKey => some .errEmptyKey

/-- The step as R85's last sentence holds it: an error response is "a *fault* outcome carrying the code, distinct from a next
state". -/
def strictStep (s : State) : Host.Outcome State Fault Refusal :=
  match step s with
  | .next t =>
    match (newResponse s t).bind (fun r => errorOf r.status) with
    | some e => .fault e
    | none => .next t
  | .fault e => .fault e
  | .refused r => .refused r

/-- Two states that differ at most in `mt` and `index`, and in these only while `SEEDED` is 0, where no rule reads them (R21). -/
structure SameToHost (s t : State) : Prop where
  seeded : s.seeded = t.seeded
  key : s.key = t.key
  keyReads : s.keyReads = t.keyReads
  inputs : s.inputs = t.inputs
  trace : s.trace = t.trace
  resets : s.resets = t.resets
  mt : s.seeded = true → s.mt = t.mt
  index : s.seeded = true → s.index = t.index

end Sys2Proof.Safety
end

