-- ==== Sys2Proof/Certificates/Slice0/Obligations.lean ====
section
/-! DEFINITION. The statements about the machine, for the provers. Each docstring names the rules it formalises.

What holds of all of them: that an error response is a next state is the model's reading (log entry 1); that the KEY space, the
host's list of inputs, the responses given and the key reads made are fields of State is the model's choice (log entry 2), and
so is the counter `resets` (log entry 3). A docstring names the log entry again where a clause is about nothing else. -/

open Sys2Proof Sys2Proof.Machine Sys2Proof.Safety

/-! ## Command words -/

/-- R38, R42, R43: no bit of a command is lost in its word. -/
def Obligations.DecodeOfEncodeGivesTheCommand : Prop :=
  ∀ i : Instr, decode (encode i) = .ok i

/-- R38, R43: a command word that is a command is the only word of that command. -/
def Obligations.EncodeOfDecodeGivesTheWord : Prop :=
  ∀ (cw : CmdWord) (i : Instr), decode cw = .ok i → encode i = cw

/-- R43, with `OP` and `ARG` as the quotient and the remainder of the word by 2^32 (R38). -/
def Obligations.DecodeIsTheFunctionOfOpcodeAndArgument : Prop :=
  ∀ cw : CmdWord, (decode cw).toOption =
    if cw.toNat / 2 ^ 32 = 0x01 then some (.seedScalar (BitVec.ofNat 32 (cw.toNat % 2 ^ 32)))
    else if cw.toNat / 2 ^ 32 = 0x02 then some (.seedArray (BitVec.ofNat 32 (cw.toNat % 2 ^ 32)))
    else if cw.toNat / 2 ^ 32 = 0x03 ∧ cw.toNat % 2 ^ 32 = 0 then some .nextU32
    else if cw.toNat / 2 ^ 32 = 0x04 ∧ cw.toNat % 2 ^ 32 = 0 then some .nextF64
    else none

/-- R42: the rows as the table has them; a word decodes to a command of the row it selects, to *reserved* when it selects
none, and it never selects two; the all-zero word is no command. -/
def Obligations.OpcodeMapRowsAreDisjointAndDecide : Prop :=
  opcodeMap = [⟨0x0100000000#40, 0xFF00000000#40⟩, ⟨0x0200000000#40, 0xFF00000000#40⟩,
    ⟨0x0300000000#40, 0xFFFFFFFFFF#40⟩, ⟨0x0400000000#40, 0xFFFFFFFFFF#40⟩] ∧
  (∀ cw : CmdWord, ∀ r ∈ opcodeMap, ∀ r' ∈ opcodeMap, selects cw r = true → selects cw r' = true → r = r') ∧
  (∀ (cw : CmdWord) (i : Instr), decode cw = .ok i → selects cw (opcodeRow i) = true) ∧
  (∀ cw : CmdWord, (∀ r ∈ opcodeMap, selects cw r = false) ↔ ∃ r, decode cw = .error r) ∧
  (∃ r, decode 0#40 = .error r)

/-- The decode vectors V-D1 to V-D12 of 95_test_vectors.md section 2.8 (R43, R44). -/
def Obligations.DecodeVectorsOfTheSpec : Prop :=
  (decode 0x0000000000#40).toOption = none ∧
  decode 0x0100000000#40 = .ok (.seedScalar 0#32) ∧
  decode 0x01FFFFFFFF#40 = .ok (.seedScalar 0xFFFFFFFF#32) ∧
  decode 0x0100000045#40 = .ok (.seedScalar 69#32) ∧
  decode 0x0200000000#40 = .ok (.seedArray 0#32) ∧
  decode 0x0200000001#40 = .ok (.seedArray 1#32) ∧
  decode 0x0300000000#40 = .ok .nextU32 ∧
  (decode 0x0300000001#40).toOption = none ∧
  decode 0x0400000000#40 = .ok .nextF64 ∧
  (decode 0x0480000000#40).toOption = none ∧
  (decode 0x0500000000#40).toOption = none ∧
  (decode 0xFFFFFFFFFF#40).toOption = none ∧
  (decode 0x8100000045#40).toOption = none

/-! ## Steps -/

/-- R5: one step is the execution of the command the host presents, taken off its list; also for a word placed by
`withFetchWord`. The list of inputs is the model's choice (log entry 2), and so is presenting a word by `withFetchWord` (log
entry 4). -/
def Obligations.StepRunsThePresentedCommand : Prop :=
  (∀ (s : State) (cw : CmdWord) (rest : List Input) (i : Instr),
    s.inputs = .command cw :: rest → decode cw = .ok i → step s = exec i { s with inputs := rest }) ∧
  (∀ (s : State) (i : Instr), step (s.withFetchWord 40 (encode i).toNat) = exec i s)

/-- R81 (its cause as R44 lists the words, its code as R41): the words that are no command answer `ERR_ILLEGAL`, change
nothing and record nothing; no command raises it. -/
def Obligations.ReservedWordsAnswerErrIllegal : Prop :=
  statusCode .errIllegal = 1#2 ∧
  (∀ (s : State) (cw : CmdWord) (rest : List Input), s.inputs = .command cw :: rest →
    (cw.toNat / 2 ^ 32 = 0 ∨ 5 ≤ cw.toNat / 2 ^ 32 ∨
      ((cw.toNat / 2 ^ 32 = 3 ∨ cw.toNat / 2 ^ 32 = 4) ∧ cw.toNat % 2 ^ 32 ≠ 0)) →
    step s = .next { s with inputs := rest, trace := s.trace ++ [⟨.errIllegal, 0#64⟩] }) ∧
  (∀ (i : Instr) (s t : State) (d : Data), exec i s = .next t → t.trace ≠ s.trace ++ [⟨.errIllegal, d⟩])

/-- R96: with nothing presented the block holds its state. That there is a step with no input is the model's choice (log entry
2). -/
def Obligations.BlockHoldsItsStateBetweenCommands : Prop :=
  ∀ s : State, s.inputs = [] → step s = .next s

/-- R93: a reset clears `SEEDED`, gives no response, and nothing is said of `mt` and `index`; the block accepts commands
after it (the next step is the next input). The KEY space and the host's record are not the block's. The counter
`resets` and its growing by one are the model's choice (log entry 3), the list of inputs is too (log entry 2). -/
def Obligations.ResetClearsSeeded : Prop :=
  ∀ (s : State) (rest : List Input), s.inputs = .reset :: rest → ∃ (mt : Mt) (index : BitVec 10),
    step s = .next { s with mt := mt, index := index, seeded := false, inputs := rest, resets := s.resets + 1 }

/-- R92: a step that is neither a command nor a reset leaves the state of the block, its responses and its key reads alone.
The list of inputs and the records of responses and key reads are the model's choice (log entry 2), the counter `resets` is too
(log entry 3). -/
def Obligations.OnlyCommandsAndResetsChangeTheBlock : Prop :=
  ∀ s t : State, step s = .next t → (∀ cw, s.inputs.head? ≠ some (.command cw)) → s.inputs.head? ≠ some .reset →
    t.mt = s.mt ∧ t.index = s.index ∧ t.seeded = s.seeded ∧ t.trace = s.trace ∧ t.keyReads = s.keyReads ∧
    t.resets = s.resets

/-- R48 `.key`: from here on the KEY space holds the given words from index 0. That no other word is supplied then is the
model's choice (log entry 5). -/
def Obligations.KeyDirectiveSuppliesTheWords : Prop :=
  ∀ (s : State) (ws : List U32) (rest : List Input), s.inputs = .key ws :: rest → ∃ key : Memory,
    step s = .next { s with key := key, inputs := rest } ∧ key.wf = true ∧ ∀ j : Nat, key.read? j = ws[j]?

/-- R25, R97: the host changes one word of the KEY space; every other word reads as before. That a host change is a step of
its own is the model's choice (log entry 2). -/
def Obligations.KeyWordWriteChangesOneWord : Prop :=
  ∀ (s : State) (j : Nat) (w : U32) (rest : List Input), s.inputs = .keyWord j w :: rest → ∃ key : Memory,
    step s = .next { s with key := key, inputs := rest } ∧ key.read? j = some w ∧
    ∀ k : Nat, k ≠ j → key.read? k = s.key.read? k

/-- R24, R26, R15: the frame of all four commands. No command writes the KEY space, only `SEED_ARRAY` reads it, no command
touches the host's list, only a seeding writes `SEEDED`, and every command gives one response and leaves the earlier ones. The
fields for the KEY space, the inputs, the responses and the key reads are the model's choice (log entry 2), the counter `resets`
is too (log entry 3). -/
def Obligations.FrameOfEveryCommand : Prop :=
  ∀ (i : Instr) (s t : State), exec i s = .next t →
    (∀ j : Nat, t.key.read? j = s.key.read? j) ∧ t.key = s.key ∧ t.inputs = s.inputs ∧ t.resets = s.resets ∧
    ((∀ len, i ≠ .seedArray len) → t.keyReads = s.keyReads) ∧
    ((i = .nextU32 ∨ i = .nextF64) → t.seeded = s.seeded) ∧
    ∃ r : Response, t.trace = s.trace ++ [r]

/-- R21, R95: after reset `SEEDED` is 0 and nothing has been answered, and an extraction is refused with `ERR_UNSEEDED`.
That the record of responses is empty at reset (log entry 3) and that an error is a next state (log entry 1) are the model's
choices. -/
def Obligations.AfterResetExtractionIsRefused : Prop :=
  State.reset.seeded = false ∧ State.reset.trace = [] ∧
  exec .nextU32 State.reset = .next { State.reset with trace := [⟨.errUnseeded, 0#64⟩] } ∧
  exec .nextF64 State.reset = .next { State.reset with trace := [⟨.errUnseeded, 0#64⟩] }

/-! ## Seeding -/

/-- R56: word 0 is `s`; word `i` is 1812433253 × (`p` XOR (`p` >> 30)) + `i` modulo 2^32, `p` the word before it; the vector
before does not matter; the worked example. -/
def Obligations.ScalarInitFollowsTheRecurrence : Prop :=
  (∀ (seed : U32) (mt : Mt), (scalarInit seed mt).word 0 = seed ∧
    ∀ i : Fin 624, i ≠ 0 → ((scalarInit seed mt).word i).toNat =
      (1812433253 * (((scalarInit seed mt).word (i - 1)).toNat ^^^ ((scalarInit seed mt).word (i - 1)).toNat / 2 ^ 30)
        + i.val) % 2 ^ 32) ∧
  (∀ mt : Mt, (scalarInit 0#32 mt).word 1 = 1#32 ∧ (scalarInit 0#32 mt).word 2 = 0x6C078967#32 ∧
    (scalarInit 0#32 mt).word 3 = 0x714ACB41#32)

/-- R57: `SEED_SCALAR`, OP 0x01 with `ARG` the seed, from any state: the vector of R56, `index` 624, `SEEDED` 1, response
(`OK`, 0), and nothing else changed, no key read; the words R57 gives for the seeds 0, 0xFFFFFFFF and 69. -/
def Obligations.SeedScalarCompletes : Prop :=
  (∀ seed : U32, decode (BitVec.ofNat 40 (0x01 * 2 ^ 32 + seed.toNat)) = .ok (.seedScalar seed)) ∧
  ∀ (seed : U32) (s : State), ∃ mt : Mt,
    exec (.seedScalar seed) s = .next { s with
      mt := mt, index := 624#10, seeded := true, trace := s.trace ++ [⟨.ok, 0#64⟩] } ∧
    mt.word 0 = seed ∧
    (∀ i : Fin 624, i ≠ 0 → (mt.word i).toNat =
      (1812433253 * ((mt.word (i - 1)).toNat ^^^ (mt.word (i - 1)).toNat / 2 ^ 30) + i.val) % 2 ^ 32) ∧
    (seed = 0#32 → mt.word 1 = 1#32) ∧ (seed = 0xFFFFFFFF#32 → mt.word 1 = 0x4FE1DA6D#32) ∧
    (seed = 69#32 → mt.word 1 = 0x1E08083A#32 ∧ mt.word 2 = 0xD72848E4#32 ∧ mt.word 623 = 0xC12D8A66#32)

/-- R49, R62: `SEED_SCALAR` leaves the same block state from any two states. -/
def Obligations.SeedScalarForgetsTheOldState : Prop :=
  ∀ (seed : U32) (s s' : State), ∃ t t' : State,
    exec (.seedScalar seed) s = .next t ∧ exec (.seedScalar seed) s' = .next t' ∧
    t.mt = t'.mt ∧ t.index = t'.index ∧ t.seeded = t'.seeded

/-- R58: `MIX1(L)` is max(624, `L`) iterations from `i` = 1, `j` = 0. After `k` iterations of `MIX1(L)` the cursor is at `i`
= 1 + (`k` mod 623) and `j` = `k` mod `L`; iteration `k` writes `mt[i]` from the old `mt[i]`, `mt[i−1]`, the key word `j`
and `j`; when `i` is 623 word 0 becomes a copy of the new word 623; every other word stays. -/
def Obligations.FirstMixingPassIterations : Prop :=
  (∀ (key : Memory) (reads : List Nat) (len : Nat) (mt : Mt),
    mix1 key reads len mt = (mix1Step key len)^[max 624 len] ⟨⟨mt, 1⟩, 0, reads⟩) ∧
  ∀ (key : Memory) (reads : List Nat) (len k : Nat) (mt : Mt), 1 ≤ len → len < 2 ^ 32 →
    ∀ m m' : Mix1,
      m = (mix1Step key len)^[k] ⟨⟨mt, 1⟩, 0, reads⟩ → m' = (mix1Step key len)^[k + 1] ⟨⟨mt, 1⟩, 0, reads⟩ →
      m.cur.i.val = 1 + k % 623 ∧ m.j = k % len ∧
      ((m'.cur.mt.word m.cur.i).toNat =
        (((m.cur.mt.word m.cur.i).toNat ^^^
          1664525 * ((m.cur.mt.word (m.cur.i - 1)).toNat ^^^ (m.cur.mt.word (m.cur.i - 1)).toNat / 2 ^ 30) % 2 ^ 32)
          + (keyRead key m.reads (k % len)).toNat + k % len) % 2 ^ 32) ∧
      (m.cur.i = 623 → m'.cur.mt.word 0 = m'.cur.mt.word 623) ∧
      (∀ n : Fin 624, n ≠ m.cur.i → (m.cur.i = 623 → n ≠ 0) → m'.cur.mt.word n = m.cur.mt.word n)

/-- R27, R58: `MIX1(L)` makes max(624, `L`) key reads, number `k` at index `k` mod `L`, and ends on `i` = 1 + (max(624, `L`)
mod 623). The record of the key reads is the model's choice (log entry 2). -/
def Obligations.FirstMixingPassReadsTheKeyCyclically : Prop :=
  ∀ (key : Memory) (reads : List Nat) (len : Nat) (mt : Mt), 1 ≤ len →
    (mix1 key reads len mt).reads = reads ++ (List.range (max 624 len)).map (fun k => k % len) ∧
    (mix1 key reads len mt).cur.i.val = 1 + max 624 len % 623

/-- R59: `MIX2` is 623 iterations from the cursor it is given. From a cursor at 1 to 623, iteration `k` of `MIX2` is at `i`
= 1 + ((`i0` − 1 + `k`) mod 623) and writes `mt[i]` from the old `mt[i]`, `mt[i−1]` and `i`, with the copy into word 0 at
`i` = 623; after 623 iterations the cursor is back where it started. -/
def Obligations.SecondMixingPassIterations : Prop :=
  (∀ c : Cursor, mix2 c = mix2Step^[623] c) ∧
  ∀ (c : Cursor) (k : Nat), c.i ≠ 0 →
    (∀ d d' : Cursor, d = mix2Step^[k] c → d' = mix2Step^[k + 1] c →
      d.i.val = 1 + (c.i.val - 1 + k) % 623 ∧
      ((d'.mt.word d.i).toNat + d.i.val) % 2 ^ 32 =
        ((d.mt.word d.i).toNat ^^^
          1566083941 * ((d.mt.word (d.i - 1)).toNat ^^^ (d.mt.word (d.i - 1)).toNat / 2 ^ 30) % 2 ^ 32) ∧
      (d.i = 623 → d'.mt.word 0 = d'.mt.word 623) ∧
      (∀ n : Fin 624, n ≠ d.i → (d.i = 623 → n ≠ 0) → d'.mt.word n = d.mt.word n)) ∧
    (mix2 c).i = c.i

/-- R60, with R27: `SEED_ARRAY`, OP 0x02 with `ARG` the key length: with no word `ERR_EMPTY_KEY` and nothing more; with at
least one steps 1 to 4, the key reads of R27, `index` 624, `SEEDED` 1, response (`OK`, 0), and nothing else changed. -/
def Obligations.SeedArrayCompletes : Prop :=
  (∀ len : U32, decode (BitVec.ofNat 40 (0x02 * 2 ^ 32 + len.toNat)) = .ok (.seedArray len)) ∧
  (∀ s : State, exec (.seedArray 0#32) s = .next { s with trace := s.trace ++ [⟨.errEmptyKey, 0#64⟩] }) ∧
  ∀ (len : U32) (s : State), len ≠ 0#32 → ∃ mt : Mt,
    exec (.seedArray len) s = .next { s with
      mt := mt, index := 624#10, seeded := true
      keyReads := s.keyReads ++ (List.range (max 624 len.toNat)).map (fun k => k % len.toNat)
      trace := s.trace ++ [⟨.ok, 0#64⟩] } ∧
    mt.word 0 = 0x80000000#32 ∧
    ∀ i : Fin 624, i ≠ 0 →
      mt.word i = (mix2 (mix1 s.key s.keyReads len.toNat (scalarInit 19650218#32 s.mt)).cur).mt.word i

/-- R83: `SEED_ARRAY` with `ARG` = 0 answers `ERR_EMPTY_KEY`, code 3, whatever the state, and changes and reads nothing; no
other command answers so. -/
def Obligations.EmptyKeyIsRejected : Prop :=
  statusCode .errEmptyKey = 3#2 ∧
  (∀ s : State, exec (.seedArray 0#32) s = .next { s with trace := s.trace ++ [⟨.errEmptyKey, 0#64⟩] }) ∧
  (∀ (i : Instr) (s t : State) (d : Data), exec i s = .next t → t.trace = s.trace ++ [⟨.errEmptyKey, d⟩] →
    i = .seedArray 0#32)

/-- R62: what `SEED_ARRAY` leaves depends on `L` and the words `KEY[0 .. L−1]` alone: neither the state before nor any other
key word. That a supplied word is stable during the command is the model's premise (log entry 6). -/
def Obligations.SeedArrayDependsOnItsKeyWordsOnly : Prop :=
  ∀ (len : U32) (s s' : State), len ≠ 0#32 →
    (∀ j : Nat, j < len.toNat → ∃ w, s.key.read? j = some w ∧ s'.key.read? j = some w) →
    ∃ t t' : State, exec (.seedArray len) s = .next t ∧ exec (.seedArray len) s' = .next t' ∧
      t.mt = t'.mt ∧ t.index = t'.index ∧ t.seeded = t'.seeded

/-- R22, R61: no seeding leaves the all-zero vector. Scalar: a zero word `i` − 1 is followed by the word `i`, which is not
zero; array: word 0 is 0x80000000. -/
def Obligations.SeedingIsNeverDegenerate : Prop :=
  (∀ (seed : U32) (s t : State), exec (.seedScalar seed) s = .next t →
    UsedPartNonzero t.mt ∧
    ∀ i : Fin 624, i ≠ 0 → t.mt.word (i - 1) = 0#32 → t.mt.word i = BitVec.ofNat 32 i.val ∧ t.mt.word i ≠ 0#32) ∧
  (∀ (len : U32) (s t : State), len ≠ 0#32 → exec (.seedArray len) s = .next t →
    UsedPartNonzero t.mt ∧ t.mt.word 0 = 0x80000000#32)

/-! ## Regeneration -/

/-- R64, bit by bit: bit 31 of `y` >> 1 is 0, bit 30 is bit 31 of `u`, bits 29 to 0 are bits 30 to 1 of `v`; the mask is
applied when bit 0 of `v` is 1; so the low bits of `u` and the top bit of `v` have no effect; the worked example. -/
def Obligations.TwistBitByBit : Prop :=
  (∀ (u v w : U32) (k : Nat), k < 32 →
    (twist u v w).getLsbD k =
      ((w.getLsbD k ^^ (if k = 31 then false else if k = 30 then u.getLsbD 31 else v.getLsbD (k + 1))) ^^
        (v.getLsbD 0 && (0x9908B0DF#32).getLsbD k))) ∧
  (∀ u u' v v' w : U32, u.getLsbD 31 = u'.getLsbD 31 → (∀ k : Nat, k < 31 → v.getLsbD k = v'.getLsbD k) →
    twist u v w = twist u' v' w) ∧
  twist 0x80000000#32 0x00000001#32 0x9908B0DF#32 = 0x40000000#32

/-- R65: iteration `i` = 0, 1, ..., 623 in this order writes `mt[i]` from the three words as they are then (`m` `i` is the
vector before iteration `i`; word numbers add modulo 624); `index` is 0 afterwards, and nothing else changes. Then the
table, which R65 marks as derived: which operand of each iteration is old and which is new. -/
def Obligations.RegenerationInPlace : Prop :=
  ∀ s : State, ∃ mt : Mt, regen s = { s with mt := mt, index := 0#10 } ∧
    (∃ m : Nat → Mt, m 0 = s.mt ∧ m 624 = mt ∧ ∀ i : Fin 624, m (i.val + 1) =
      (m i.val).setWord i (twist ((m i.val).word i) ((m i.val).word (i + 1)) ((m i.val).word (i + 397)))) ∧
    (∀ i : Fin 624, i.val ≤ 226 → mt.word i = twist (s.mt.word i) (s.mt.word (i + 1)) (s.mt.word (i + 397))) ∧
    (∀ i : Fin 624, 227 ≤ i.val → i.val ≤ 622 →
      mt.word i = twist (s.mt.word i) (s.mt.word (i + 1)) (mt.word (i - 227))) ∧
    mt.word 623 = twist (s.mt.word 623) (mt.word 0) (mt.word 396)

/-- R66: the loop with `mod` and the three loops without it give the same vector. -/
def Obligations.RegenerationEqualsItsThreeLoops : Prop :=
  ∀ mt : Mt, regenMt mt = regenMtSplit mt

/-- R65, R60 (f): the low 31 bits of the old word 0 have no influence on the new vector. -/
def Obligations.RegenerationIgnoresLowBitsOfWordZero : Prop :=
  ∀ mt mt' : Mt, (mt.word 0).getLsbD 31 = (mt'.word 0).getLsbD 31 →
    (∀ i : Fin 624, i ≠ 0 → mt.word i = mt'.word i) → regenMt mt = regenMt mt'

/-- R65, U4, V-R3: the all-zero vector regenerates to itself, and its outputs are 0. -/
def Obligations.ZeroVectorStaysZero : Prop :=
  (∀ mt : Mt, (∀ i, mt.word i = 0#32) → ∀ i, (regenMt mt).word i = 0#32) ∧ temper 0#32 = 0#32

/-! ## Extraction -/

/-- R69, with the shifts as division and as multiplication modulo 2^32 (R54): the four stages, each on the result of the one
before; the worked example. -/
def Obligations.TemperingStages : Prop :=
  (∀ y0 : U32, ∃ y1 y2 y3 : Nat,
    y1 = (y0.toNat ^^^ y0.toNat / 2 ^ 11) ∧
    y2 = (y1 ^^^ (2 ^ 7 * y1 % 2 ^ 32 &&& 0x9D2C5680)) ∧
    y3 = (y2 ^^^ (2 ^ 15 * y2 % 2 ^ 32 &&& 0xEFC60000)) ∧
    (temper y0).toNat = (y3 ^^^ y3 / 2 ^ 18)) ∧
  temper 0x00000001#32 = 0x00400091#32

/-- V-M3 to V-M10 of 95_test_vectors.md (R69). -/
def Obligations.TemperingVectorsOfTheSpec : Prop :=
  temper 0x80000000#32 = 0x88102204#32 ∧ temper 0xFFFFFFFF#32 = 0x6FE01BF8#32 ∧ temper 0x12345678#32 = 0x2B7E4A2D#32 ∧
  temper 0x00000800#32 = 0x04440990#32 ∧ temper 0x9D2C5680#32 = 0xEB93CDEE#32 ∧ temper 0xEFC60000#32 = 0xAEB7936D#32 ∧
  temper 0xDEADBEEF#32 = 0xE016575D#32 ∧ temper 0x9B0AFA27#32 = 0xD091BB5C#32

/-- R71, R63: a draw regenerates exactly when it finds `index` = 624, reads the word at the index it then has, and leaves
the index after it; nothing else changes. -/
def Obligations.DrawTakesTheNextWord : Prop :=
  ∀ s : State, s.index.toNat ≤ 624 → ∃ (r : U32) (t : State), draw s = some (r, t) ∧
    t = { s with mt := t.mt, index := t.index } ∧
    (s.index.toNat = 624 → t.mt = regenMt s.mt ∧ r = temper (t.mt.word 0) ∧ t.index.toNat = 1) ∧
    (∀ h : s.index.toNat < 624,
      t.mt = s.mt ∧ r = temper (s.mt.word ⟨s.index.toNat, h⟩) ∧ t.index.toNat = s.index.toNat + 1)

/-- R72: `NEXT_U32`, OP 0x03 with `ARG` 0. With `SEEDED` = 0 `ERR_UNSEEDED` and nothing more; with `SEEDED` = 1, from every
legal index: the response carries the tempered word in `DATA[31:0]`, zeros above, and nothing changes but `index`, and `mt`
when it regenerates (corner cases (a) and (b)). -/
def Obligations.NextWordCompletes : Prop :=
  decode 0x0300000000#40 = .ok .nextU32 ∧
  (∀ s : State, s.seeded = false →
    exec .nextU32 s = .next { s with trace := s.trace ++ [⟨.errUnseeded, 0#64⟩] }) ∧
  ∀ s : State, s.seeded = true →
    (s.index.toNat = 624 → exec .nextU32 s = .next { s with
      mt := regenMt s.mt, index := 1#10
      trace := s.trace ++ [⟨.ok, (temper ((regenMt s.mt).word 0)).setWidth 64⟩] }) ∧
    (∀ h : s.index.toNat < 624, exec .nextU32 s = .next { s with
      index := BitVec.ofNat 10 (s.index.toNat + 1)
      trace := s.trace ++ [⟨.ok, (temper (s.mt.word ⟨s.index.toNat, h⟩)).setWidth 64⟩] })

/-- R75: `NEXT_F64`, OP 0x04 with `ARG` 0. With `SEEDED` = 0 `ERR_UNSEEDED` and nothing more; with `SEEDED` = 1, from every
legal index, two draws, in the three cases of R77. -/
def Obligations.NextDoubleCompletes : Prop :=
  decode 0x0400000000#40 = .ok .nextF64 ∧
  (∀ s : State, s.seeded = false →
    exec .nextF64 s = .next { s with trace := s.trace ++ [⟨.errUnseeded, 0#64⟩] }) ∧
  ∀ s : State, s.seeded = true →
    (s.index.toNat = 624 → exec .nextF64 s = .next { s with
      mt := regenMt s.mt, index := 2#10
      trace := s.trace ++ [⟨.ok, f64Bits
        (2 ^ 26 * ((temper ((regenMt s.mt).word 0)).toNat / 2 ^ 5) + (temper ((regenMt s.mt).word 1)).toNat / 2 ^ 6)⟩] }) ∧
    (s.index.toNat = 623 → exec .nextF64 s = .next { s with
      mt := regenMt s.mt, index := 1#10
      trace := s.trace ++ [⟨.ok, f64Bits
        (2 ^ 26 * ((temper (s.mt.word 623)).toNat / 2 ^ 5) + (temper ((regenMt s.mt).word 0)).toNat / 2 ^ 6)⟩] }) ∧
    (∀ h : s.index.toNat + 1 < 624, exec .nextF64 s = .next { s with
      index := BitVec.ofNat 10 (s.index.toNat + 2)
      trace := s.trace ++ [⟨.ok, f64Bits
        (2 ^ 26 * ((temper (s.mt.word ⟨s.index.toNat, by omega⟩)).toNat / 2 ^ 5) +
          (temper (s.mt.word ⟨s.index.toNat + 1, h⟩)).toNat / 2 ^ 6)⟩] })

/-- R82: both extractions with `SEEDED` = 0 answer `ERR_UNSEEDED`, code 2, whatever `mt` and `index` hold, and change
nothing; with `SEEDED` = 1 no command answers so, nor does a seeding ever. -/
def Obligations.UnseededExtractionIsRefused : Prop :=
  statusCode .errUnseeded = 2#2 ∧
  (∀ s : State, s.seeded = false →
    exec .nextU32 s = .next { s with trace := s.trace ++ [⟨.errUnseeded, 0#64⟩] } ∧
    exec .nextF64 s = .next { s with trace := s.trace ++ [⟨.errUnseeded, 0#64⟩] }) ∧
  (∀ (i : Instr) (s t : State) (d : Data), exec i s = .next t → t.trace = s.trace ++ [⟨.errUnseeded, d⟩] →
    s.seeded = false ∧ (i = .nextU32 ∨ i = .nextF64))

/-- U9: with `SEEDED` = 1 and `index` above 624 the model refuses to draw. Such a state is unreachable (R11). That
the 10-bit register is held as it is, and the refusal's name, are the model's choice (log entry 7). -/
def Obligations.IllFormedIndexIsRefused : Prop :=
  ∀ s : State, s.seeded = true → 624 < s.index.toNat →
    exec .nextU32 s = .refused .illFormedIndex ∧ exec .nextF64 s = .refused .illFormedIndex

/-- R73: `n` is `a` above `b`, `a` the high 27 bits of the first draw and `b` the high 26 bits of the second, and is below
2^53. -/
def Obligations.DoubleNumeratorJoinsTheDraws : Prop :=
  ∀ r1 r2 : U32, f64Numerator r1 r2 = (r1.extractLsb' 5 27 ++ r2.extractLsb' 6 26).toNat ∧
    f64Numerator r1 r2 < 2 ^ 53

/-- R74: for 0 < `n` < 2^53 the pattern has sign 0, `E` = 970 + `p` and `F` = (`n` − 2^`p`) × 2^(52 − `p`) for the `p` with
2^`p` <= `n` < 2^(`p` + 1), so that (2^52 + `F`) × 2^(`E` − 970) = `n` × 2^52, the value `n` / 2^53; 0 gives +0.0; the worked
examples. R74 marks the binary64 layout as "from general knowledge, not in source" and takes it by decision D15. -/
def Obligations.DoubleBitsHaveTheExactValue : Prop :=
  f64Bits 0 = 0#64 ∧
  (∀ n : Nat, 0 < n → n < 2 ^ 53 →
    (f64Bits n).getLsbD 63 = false ∧
    970 ≤ ((f64Bits n).extractLsb' 52 11).toNat ∧ ((f64Bits n).extractLsb' 52 11).toNat ≤ 1022 ∧
    2 ^ (((f64Bits n).extractLsb' 52 11).toNat - 970) ≤ n ∧ n < 2 ^ (((f64Bits n).extractLsb' 52 11).toNat - 969) ∧
    (2 ^ 52 + ((f64Bits n).extractLsb' 0 52).toNat) * 2 ^ (((f64Bits n).extractLsb' 52 11).toNat - 970) = 2 ^ 52 * n) ∧
  f64Bits 1 = 0x3CA0000000000000#64 ∧ f64Bits (2 ^ 52) = 0x3FE0000000000000#64 ∧
  f64Bits (2 ^ 53 - 1) = 0x3FEFFFFFFFFFFFFF#64 ∧ f64Bits 7605875871743422 = 0x3FEB0580F98A7DBE#64

/-- R76: what `NEXT_F64` answers is +0.0 or a normal number with `E` from 970 to 1022: never negative, an infinity, a NaN or
subnormal, and below 1. -/
def Obligations.NextDoubleIsInTheUnitInterval : Prop :=
  ∀ (s t : State) (d : Data), exec .nextF64 s = .next t → t.trace = s.trace ++ [⟨.ok, d⟩] →
    d = 0#64 ∨ (d.getLsbD 63 = false ∧ 970 ≤ (d.extractLsb' 52 11).toNat ∧ (d.extractLsb' 52 11).toNat ≤ 1022)

/-- R75, R77, R99: `NEXT_F64` consumes what two `NEXT_U32` would, the first supplying the high part. -/
def Obligations.NextDoubleConsumesTwoWords : Prop :=
  ∀ (s t u : State) (r1 r2 : U32), exec .nextU32 s = .next t → exec .nextU32 t = .next u →
    u.trace = s.trace ++ [⟨.ok, zext64 r1⟩, ⟨.ok, zext64 r2⟩] →
    exec .nextF64 s = .next { u with trace := s.trace ++ [⟨.ok, f64Bits (f64Numerator r1 r2)⟩] }

/-- R68, for the draws of `NEXT_U32`: `d` of them after a seeding leave `index` = ((`d` − 1) mod 624) + 1, the vector
regenerated once for each 624 draws begun, and `d` responses. The list of inputs and the record of responses are the model's
choice (log entry 2). -/
def Obligations.RegenerationBoundary : Prop :=
  ∀ (s : State) (d : Nat), s.seeded = true → s.index = 624#10 → 1 ≤ d →
    s.inputs = List.replicate d (.command 0x0300000000#40) →
    ∃ t : State, core.run d s = .next t ∧ t.index.toNat = (d - 1) % 624 + 1 ∧
      t.mt = regenMt^[(d + 623) / 624] s.mt ∧ t.trace.length = s.trace.length + d ∧ t.inputs = [] ∧ t.seeded = true

/-- R68, "A `NEXT_F64` counts as two draws": extractions of both kinds, in any order, that make `d` draws after a seeding leave
`index` = ((`d` − 1) mod 624) + 1, the vector regenerated once for each 624 draws begun, and one response each. The list of
inputs and the record of responses are the model's choice (log entry 2). -/
def Obligations.MixedExtractionsFollowTheBoundary : Prop :=
  ∀ (s : State) (cmds : List Instr) (d : Nat), s.seeded = true → s.index = 624#10 →
    cmds ≠ [] → (∀ i ∈ cmds, i = .nextU32 ∨ i = .nextF64) →
    d = (cmds.map fun i => if i = .nextF64 then 2 else 1).sum →
    s.inputs = cmds.map (fun i => .command (encode i)) →
    ∃ t : State, core.run cmds.length s = .next t ∧ t.index.toNat = (d - 1) % 624 + 1 ∧
      t.mt = regenMt^[(d + 623) / 624] s.mt ∧ t.trace.length = s.trace.length + cmds.length ∧ t.inputs = [] ∧
      t.seeded = true

/-! ## Errors and the whole machine -/

/-- R85, R86: a command word whose response is not `OK` has `DATA` 0 and leaves everything else as it was: `mt`, `index`,
`SEEDED`, the KEY space and the key reads. That an error response is a next state is the model's reading (log entry 1). -/
def Obligations.ErrorResponsesChangeNothing : Prop :=
  ∀ (s t : State) (cw : CmdWord) (rest : List Input) (r : Response),
    s.inputs = .command cw :: rest → step s = .next t → t.trace = s.trace ++ [r] → r.status ≠ .ok →
    t = { s with inputs := rest, trace := s.trace ++ [⟨r.status, 0#64⟩] }

/-- R40: an accepted command word ends with exactly one response, and `DATA` is 0 but for a successful extraction, whose
`DATA` above bit 31 is 0 for `NEXT_U32`. The list of inputs and the record of responses are the model's choice (log entry 2). -/
def Obligations.ExactlyOneResponsePerCommand : Prop :=
  ∀ (s t : State) (cw : CmdWord) (rest : List Input), s.inputs = .command cw :: rest → step s = .next t →
    ∃ r : Response, t.trace = s.trace ++ [r] ∧ t.inputs = rest ∧
      (r.status ≠ .ok → r.data = 0#64) ∧
      (∀ x, (decode cw = .ok (.seedScalar x) ∨ decode cw = .ok (.seedArray x)) → r.data = 0#64) ∧
      (decode cw = .ok .nextU32 → r.data.toNat < 2 ^ 32)

/-- R41, R87: the code of the response to every command word, in the fixed order of checks: decode, then the command's own
check, then execution. -/
def Obligations.StatusOfEveryCommandWord : Prop :=
  (statusCode .ok = 0#2 ∧ statusCode .errIllegal = 1#2 ∧ statusCode .errUnseeded = 2#2 ∧ statusCode .errEmptyKey = 3#2) ∧
  ∀ (s : State) (cw : CmdWord) (rest : List Input), s.inputs = .command cw :: rest → IndexLegal s →
    ∃ (t : State) (d : Data), step s = .next t ∧ t.trace = s.trace ++ [⟨
      match decode cw with
      | .error _ => .errIllegal
      | .ok (.seedScalar _) => .ok
      | .ok (.seedArray len) => if len = 0#32 then .errEmptyKey else .ok
      | .ok .nextU32 => if s.seeded then .ok else .errUnseeded
      | .ok .nextF64 => if s.seeded then .ok else .errUnseeded, d⟩]

/-- R12: `SEEDED` is 0 after reset; after a step it is set by a successful seeding, cleared by a reset, and otherwise as it
was; where it is 0 both extractions answer `ERR_UNSEEDED` and change nothing. -/
def Obligations.SeededIsWrittenBySeedingAndResetOnly : Prop :=
  State.reset.seeded = false ∧
  (∀ (i : Instr) (s : State), (i = .nextU32 ∨ i = .nextF64) → s.seeded = false →
    exec i s = .next { s with trace := s.trace ++ [⟨.errUnseeded, 0#64⟩] }) ∧
  ∀ s t : State, step s = .next t →
    (t.seeded = true ↔
      s.inputs.head? ≠ some .reset ∧
        (s.seeded = true ∨
          ∃ cw, s.inputs.head? = some (.command cw) ∧
            ((∃ seed, decode cw = .ok (.seedScalar seed)) ∨ ∃ len, len ≠ 0#32 ∧ decode cw = .ok (.seedArray len))))

/-- R13 (e), R21, R22: the reset state is legal: `SEEDED` is 0 (R21), so R13 (e) and R22 ask nothing of `index` and `mt`. The
third part, the canonical form of the KEY space, is the model's choice (log entry 5), as is that the KEY space lists nothing at
reset (log entry 3). -/
def Obligations.ResetStateIsLegal : Prop := Inv State.reset

/-- R11, R13 (e): every step keeps `index` in 0 to 624 whenever `SEEDED` is 1. -/
def Obligations.StepKeepsTheIndexLegal : Prop :=
  ∀ s t : State, IndexLegal s → step s = .next t → IndexLegal t

/-- R22: no command sequence reaches the all-zero vector: every step keeps the part the regeneration reads from being all zero
whenever `SEEDED` is 1. For the seedings R22 states it; for a regeneration R22 marks it as an inference, "from general
knowledge, not in source". -/
def Obligations.StepKeepsTheVectorNondegenerate : Prop :=
  ∀ s t : State, Nondegenerate s → step s = .next t → Nondegenerate t

/-- The model's form of the KEY space (log entry 5) is kept by every step. -/
def Obligations.StepKeepsTheKeySpaceCanonical : Prop :=
  ∀ s t : State, KeyCanonical s → step s = .next t → KeyCanonical t

/-- R84, R102: from a state with a legal index every step, whatever the host sends, ends in a next state. That a step is a
next state also where the block answers an error is the model's reading (log entry 1). -/
def Obligations.EveryStepFromALegalIndexCompletes : Prop :=
  ∀ s : State, IndexLegal s → ∃ t : State, step s = .next t

/-- R21, R103: what the block answers does not depend on what `mt` and `index` held when it was not seeded: two runs that
start unseeded and differ in these alone end in the same outcome to the host, after any number of steps. That resets number
`n` of the two runs leave the same free contents is the model's (log entry 3); the statement does not rest on it. The two runs
read the same key words, R103's other argument; that this holds too of words the host has not supplied is the form of their free
value (log entry 5). The list of inputs is the model's choice (log entry 2). -/
def Obligations.ResponsesDoNotDependOnUnspecifiedStorage : Prop :=
  ∀ (n : Nat) (s s' : State), s.seeded = false →
    (∃ (mt : Mt) (index : BitVec 10), s' = { s with mt := mt, index := index }) →
    ∃ t t' : State, core.run n s = .next t ∧ core.run n s' = .next t' ∧ SameToHost t t'

/-- R21, R103, for one step: two states that differ at most in `mt` and `index`, and in these only while `SEEDED` is 0, both step
to a next state, and the two still differ in no more; from a legal index, which is kept. That both read the same word where the
host has supplied none is the form of its free value (log entry 5); the fields beside the block's own are the model's choice
(log entry 2), and an error is a next state by log entry 1. -/
def Obligations.StepKeepsStatesTheSameToHost : Prop :=
  ∀ s s' : State, SameToHost s s' → IndexLegal s →
    ∃ t t' : State, step s = .next t ∧ step s' = .next t' ∧ SameToHost t t' ∧ IndexLegal t ∧ IndexLegal t'

/-- R85, last sentence: the strict step answers a fault exactly where the step answers the error's response, and is the step
otherwise. That the step itself answers a next state there is the model's reading (log entry 1). -/
def Obligations.StrictStepFaultsOnErrorResponses : Prop :=
  (∀ (s : State) (e : Fault), strictStep s = .fault e ↔
    ∃ t : State, step s = .next t ∧ t.trace = s.trace ++ [⟨faultStatus e, 0#64⟩]) ∧
  (∀ s t : State, strictStep s = .next t → step s = .next t)

/-! ## Text -/

/-- R47: the command word of each line of text, and an operand outside its range is no command. -/
def Obligations.TextLinesGiveTheirCommandWords : Prop :=
  (∀ n : Nat, n < 2 ^ 32 →
    assemble (.seedScalar n) = some (.command (BitVec.ofNat 40 (0x01 * 2 ^ 32 + n))) ∧
    assemble (.seedArray n) = some (.command (BitVec.ofNat 40 (0x02 * 2 ^ 32 + n)))) ∧
  assemble .nextU32 = some (.command 0x0300000000#40) ∧ assemble .nextF64 = some (.command 0x0400000000#40) ∧
  (∀ n : Nat, 2 ^ 32 ≤ n → assemble (.seedScalar n) = none ∧ assemble (.seedArray n) = none)

/-- R47, R48: lines of the spec's own programs P1, P3 and P5, and a line with an operand out of range. How blanks and commas are
read is the model's choice (log entry 10). -/
def Obligations.TextOfTheSpecIsRead : Prop :=
  readLine ("seed_array 1        ; 0x02_00000001 -> (OK, 0)".toList) = some (some (.seedArray 1)) ∧
  readLine ("next_f64".toList) = some (some .nextF64) ∧
  readLine (".key 0x123, 0x234, 0x345, 0x456".toList) = some (some (.key [0x123, 0x234, 0x345, 0x456])) ∧
  readLine (".word 0x0300000007  ; 0x03_00000007".toList) = some (some (.word 0x0300000007)) ∧
  readLine (".reset".toList) = some (some .reset) ∧
  readLine ("seed_scalar 4294967296".toList) = none
end

