-- ==== Sys2Proof/Laws/Memory.lean ====
section
/-! SUPPORT. The words of `mt` and of the KEY space: read after write, the canonical form, and loops over word numbers. -/

namespace Sys2Proof.Machine

theorem Mt.word_setWord_self (mt : Mt) (i : Fin 624) (w : U32) : (mt.setWord i w).word i = w := by
  simp [Mt.word, Mt.setWord]

theorem Mt.word_setWord_of_ne (mt : Mt) {i j : Fin 624} (w : U32) (h : j ≠ i) :
    (mt.setWord i w).word j = mt.word j := by
  have h' : i.val ≠ j.val := fun e => h (Fin.ext e.symm)
  simp [Mt.word, Mt.setWord, Vector.getElem_set_ne, h']

theorem Mt.word_setWord (mt : Mt) (i j : Fin 624) (w : U32) :
    (mt.setWord i w).word j = if j = i then w else mt.word j := by
  by_cases h : j = i
  · subst h; simp [Mt.word_setWord_self]
  · simp [h, Mt.word_setWord_of_ne]

/-- Two vectors are equal when their words are. -/
theorem Mt.ext_word {a b : Mt} (h : ∀ i, a.word i = b.word i) : a = b :=
  Vector.ext fun i hi => h ⟨i, hi⟩

/-- A property of the vector that holds before a loop and that each iteration carries on holds after it. -/
theorem fold_induction {α : Type} (P : Nat → α → Prop) (n : Nat) (body : (i : Nat) → i < n → α → α) (a : α)
    (h0 : P 0 a) (hstep : ∀ i h b, P i b → P (i + 1) (body i h b)) : P n (Nat.fold n body a) := by
  induction n with
  | zero => simpa using h0
  | succ n ih =>
    rw [Nat.fold_succ]
    exact hstep n _ _ (ih (fun i h => body i (Nat.lt_succ_of_lt h)) fun i h => hstep i _)

/-- The same for a loop whose body does not depend on the iteration's number. -/
theorem iterate_induction {α : Type} (P : Nat → α → Prop) (f : α → α) (a : α) (h0 : P 0 a)
    (hstep : ∀ k b, P k b → P (k + 1) (f b)) (n : Nat) : P n (f^[n] a) := by
  induction n with
  | zero => exact h0
  | succ n ih => rw [Function.iterate_succ_apply']; exact hstep n _ ih

theorem Memory.wf_tail {c : Nat × U32} {m : Memory} (h : Memory.wf (c :: m) = true) : Memory.wf m = true := by
  cases m with
  | nil => rfl
  | cons d m => simp only [Memory.wf, Bool.and_eq_true] at h; exact h.2

/-- A cell may be put before a canonical KEY space when its index is below the first one. -/
theorem Memory.wf_cons {a : Nat} {w : U32} {m : Memory} (h : Memory.wf m = true)
    (hlt : ∀ c, m.head? = some c → a < c.1) : Memory.wf ((a, w) :: m) = true := by
  cases m with
  | nil => rfl
  | cons d m =>
    simp only [Memory.wf, Bool.and_eq_true, decide_eq_true_eq]
    exact ⟨hlt d rfl, h⟩

/-- The first index of the KEY space after a write is the old one or the one written. -/
theorem Memory.head_write (m : Memory) (j : Nat) (w : U32) (c : Nat × U32) (h : (m.write j w).head? = some c) :
    c.1 = j ∨ m.head?.map Prod.fst = some c.1 := by
  cases m with
  | nil => left; simp [Memory.write] at h; simp [← h]
  | cons d m =>
    obtain ⟨a, v⟩ := d
    simp only [Memory.write] at h
    split at h
    · left; simp at h; simp [← h]
    · split at h
      · left; simp at h; simp [← h]
      · right; simp at h; simp [← h]

theorem Memory.wf_write (m : Memory) (j : Nat) (w : U32) (h : m.wf = true) : (m.write j w).wf = true := by
  induction m with
  | nil => rfl
  | cons d m ih =>
    obtain ⟨a, v⟩ := d
    simp only [Memory.write]
    split
    · exact Memory.wf_cons h (by intro c hc; simp at hc; simpa [← hc])
    · split
      · subst j
        cases m with
        | nil => rfl
        | cons e m => simpa [Memory.wf] using h
      · refine Memory.wf_cons (ih (Memory.wf_tail h)) fun c hc => ?_
        rcases Memory.head_write m j w c hc with e | e
        · omega
        · cases m with
          | nil => simp at e
          | cons f m =>
            simp at e
            simp only [Memory.wf, Bool.and_eq_true, decide_eq_true_eq] at h
            omega

theorem Memory.wf_ofWords (ws : List U32) : ∀ j, (Memory.ofWords j ws).wf = true := by
  induction ws with
  | nil => intro j; rfl
  | cons w ws ih =>
    intro j
    refine Memory.wf_cons (ih (j + 1)) fun c hc => ?_
    cases ws with
    | nil => simp [Memory.ofWords] at hc
    | cons v ws => simp [Memory.ofWords] at hc; simp [← hc]

theorem Memory.read_write_self (m : Memory) (j : Nat) (w : U32) : (m.write j w).read? j = some w := by
  induction m with
  | nil => simp [Memory.write, Memory.read?]
  | cons d m ih =>
    obtain ⟨a, v⟩ := d
    simp only [Memory.write]
    split
    · simp [Memory.read?]
    · split
      · simp [Memory.read?]
      · have : a ≠ j := by omega
        simp [Memory.read?, this, ih]

theorem Memory.read_write_of_ne (m : Memory) {j k : Nat} (w : U32) (h : k ≠ j) : (m.write j w).read? k = m.read? k := by
  have h' : j ≠ k := h.symm
  induction m with
  | nil => simp [Memory.write, Memory.read?, h']
  | cons d m ih =>
    obtain ⟨a, v⟩ := d
    simp only [Memory.write]
    split
    · simp [Memory.read?, h']
    · split
      · subst j; simp [Memory.read?, h']
      · simp [Memory.read?, ih]

/-- The words set by `.key`, and no others. -/
theorem Memory.read_ofWords (ws : List U32) : ∀ j k, (Memory.ofWords j ws).read? k = if j ≤ k then ws[k - j]? else none := by
  induction ws with
  | nil => intro j k; simp [Memory.ofWords, Memory.read?]
  | cons w ws ih =>
    intro j k
    simp only [Memory.ofWords, Memory.read?, ih]
    by_cases e : j = k
    · subst e; simp
    · by_cases l : j ≤ k
      · have : k - j = (k - (j + 1)) + 1 := by omega
        have l' : j + 1 ≤ k := by omega
        simp [e, l, l', this]
      · have l' : ¬ j + 1 ≤ k := by omega
        simp [e, l, l']

/-- A word the host has supplied is what `KeyRead` answers. -/
theorem keyRead_of_supplied {key : Memory} {j : Nat} {w : U32} (h : key.read? j = some w) (reads : List Nat) :
    keyRead key reads j = w := by
  simp [keyRead, h]

end Sys2Proof.Machine
end

