-- ==== Sys2Proof/Laws/State.lean ====
section
/-! SUPPORT. What each update of the state does to each field: one lemma per field per update, true by `rfl`. -/

namespace Sys2Proof.Machine

@[simp] theorem markSeeded_mt (s : State) :
    (markSeeded s).mt = s.mt := rfl
@[simp] theorem markSeeded_index (s : State) :
    (markSeeded s).index = 624#10 := rfl
@[simp] theorem markSeeded_seeded (s : State) :
    (markSeeded s).seeded = true := rfl
@[simp] theorem markSeeded_key (s : State) :
    (markSeeded s).key = s.key := rfl
@[simp] theorem markSeeded_keyReads (s : State) :
    (markSeeded s).keyReads = s.keyReads := rfl
@[simp] theorem markSeeded_inputs (s : State) :
    (markSeeded s).inputs = s.inputs := rfl
@[simp] theorem markSeeded_trace (s : State) :
    (markSeeded s).trace = s.trace := rfl
@[simp] theorem markSeeded_resets (s : State) :
    (markSeeded s).resets = s.resets := rfl

@[simp] theorem respond_mt (st : Status) (d : Data) (s : State) :
    (respond st d s).mt = s.mt := rfl
@[simp] theorem respond_index (st : Status) (d : Data) (s : State) :
    (respond st d s).index = s.index := rfl
@[simp] theorem respond_seeded (st : Status) (d : Data) (s : State) :
    (respond st d s).seeded = s.seeded := rfl
@[simp] theorem respond_key (st : Status) (d : Data) (s : State) :
    (respond st d s).key = s.key := rfl
@[simp] theorem respond_keyReads (st : Status) (d : Data) (s : State) :
    (respond st d s).keyReads = s.keyReads := rfl
@[simp] theorem respond_inputs (st : Status) (d : Data) (s : State) :
    (respond st d s).inputs = s.inputs := rfl
@[simp] theorem respond_trace (st : Status) (d : Data) (s : State) :
    (respond st d s).trace = s.trace ++ [⟨st, d⟩] := rfl
@[simp] theorem respond_resets (st : Status) (d : Data) (s : State) :
    (respond st d s).resets = s.resets := rfl

@[simp] theorem raise_mt (e : Fault) (s : State) :
    (raise e s).mt = s.mt := rfl
@[simp] theorem raise_index (e : Fault) (s : State) :
    (raise e s).index = s.index := rfl
@[simp] theorem raise_seeded (e : Fault) (s : State) :
    (raise e s).seeded = s.seeded := rfl
@[simp] theorem raise_key (e : Fault) (s : State) :
    (raise e s).key = s.key := rfl
@[simp] theorem raise_keyReads (e : Fault) (s : State) :
    (raise e s).keyReads = s.keyReads := rfl
@[simp] theorem raise_inputs (e : Fault) (s : State) :
    (raise e s).inputs = s.inputs := rfl
@[simp] theorem raise_trace (e : Fault) (s : State) :
    (raise e s).trace = s.trace ++ [⟨faultStatus e, 0#64⟩] := rfl
@[simp] theorem raise_resets (e : Fault) (s : State) :
    (raise e s).resets = s.resets := rfl

@[simp] theorem applyReset_mt (s : State) :
    (applyReset s).mt = resetMt s.resets := rfl
@[simp] theorem applyReset_index (s : State) :
    (applyReset s).index = Config.resetIndex s.resets := rfl
@[simp] theorem applyReset_seeded (s : State) :
    (applyReset s).seeded = false := rfl
@[simp] theorem applyReset_key (s : State) :
    (applyReset s).key = s.key := rfl
@[simp] theorem applyReset_keyReads (s : State) :
    (applyReset s).keyReads = s.keyReads := rfl
@[simp] theorem applyReset_inputs (s : State) :
    (applyReset s).inputs = s.inputs := rfl
@[simp] theorem applyReset_trace (s : State) :
    (applyReset s).trace = s.trace := rfl
@[simp] theorem applyReset_resets (s : State) :
    (applyReset s).resets = s.resets + 1 := rfl

@[simp] theorem regen_mt (s : State) :
    (regen s).mt = regenMt s.mt := rfl
@[simp] theorem regen_index (s : State) :
    (regen s).index = 0#10 := rfl
@[simp] theorem regen_seeded (s : State) :
    (regen s).seeded = s.seeded := rfl
@[simp] theorem regen_key (s : State) :
    (regen s).key = s.key := rfl
@[simp] theorem regen_keyReads (s : State) :
    (regen s).keyReads = s.keyReads := rfl
@[simp] theorem regen_inputs (s : State) :
    (regen s).inputs = s.inputs := rfl
@[simp] theorem regen_trace (s : State) :
    (regen s).trace = s.trace := rfl
@[simp] theorem regen_resets (s : State) :
    (regen s).resets = s.resets := rfl

@[simp] theorem arraySeed_mt (len : Nat) (s : State) :
    (arraySeed len s).mt = (mix2 (mix1 s.key s.keyReads len (scalarInit Config.arrayBaseSeed s.mt)).cur).mt.setWord 0 Config.forcedMt0 := rfl
@[simp] theorem arraySeed_index (len : Nat) (s : State) :
    (arraySeed len s).index = s.index := rfl
@[simp] theorem arraySeed_seeded (len : Nat) (s : State) :
    (arraySeed len s).seeded = s.seeded := rfl
@[simp] theorem arraySeed_key (len : Nat) (s : State) :
    (arraySeed len s).key = s.key := rfl
@[simp] theorem arraySeed_keyReads (len : Nat) (s : State) :
    (arraySeed len s).keyReads = (mix1 s.key s.keyReads len (scalarInit Config.arrayBaseSeed s.mt)).reads := rfl
@[simp] theorem arraySeed_inputs (len : Nat) (s : State) :
    (arraySeed len s).inputs = s.inputs := rfl
@[simp] theorem arraySeed_trace (len : Nat) (s : State) :
    (arraySeed len s).trace = s.trace := rfl
@[simp] theorem arraySeed_resets (len : Nat) (s : State) :
    (arraySeed len s).resets = s.resets := rfl

@[simp] theorem presentNext_mt (cw : CmdWord) (s : State) :
    (presentNext cw s).mt = s.mt := rfl
@[simp] theorem presentNext_index (cw : CmdWord) (s : State) :
    (presentNext cw s).index = s.index := rfl
@[simp] theorem presentNext_seeded (cw : CmdWord) (s : State) :
    (presentNext cw s).seeded = s.seeded := rfl
@[simp] theorem presentNext_key (cw : CmdWord) (s : State) :
    (presentNext cw s).key = s.key := rfl
@[simp] theorem presentNext_keyReads (cw : CmdWord) (s : State) :
    (presentNext cw s).keyReads = s.keyReads := rfl
@[simp] theorem presentNext_inputs (cw : CmdWord) (s : State) :
    (presentNext cw s).inputs = .command cw :: s.inputs := rfl
@[simp] theorem presentNext_trace (cw : CmdWord) (s : State) :
    (presentNext cw s).trace = s.trace := rfl
@[simp] theorem presentNext_resets (cw : CmdWord) (s : State) :
    (presentNext cw s).resets = s.resets := rfl

@[simp] theorem presentAfter_mt (xs : List Input) (s : State) :
    (presentAfter xs s).mt = s.mt := rfl
@[simp] theorem presentAfter_index (xs : List Input) (s : State) :
    (presentAfter xs s).index = s.index := rfl
@[simp] theorem presentAfter_seeded (xs : List Input) (s : State) :
    (presentAfter xs s).seeded = s.seeded := rfl
@[simp] theorem presentAfter_key (xs : List Input) (s : State) :
    (presentAfter xs s).key = s.key := rfl
@[simp] theorem presentAfter_keyReads (xs : List Input) (s : State) :
    (presentAfter xs s).keyReads = s.keyReads := rfl
@[simp] theorem presentAfter_inputs (xs : List Input) (s : State) :
    (presentAfter xs s).inputs = s.inputs ++ xs := rfl
@[simp] theorem presentAfter_trace (xs : List Input) (s : State) :
    (presentAfter xs s).trace = s.trace := rfl
@[simp] theorem presentAfter_resets (xs : List Input) (s : State) :
    (presentAfter xs s).resets = s.resets := rfl

end Sys2Proof.Machine
end

