-- ==== Sys2Proof/Laws/Commands.lean ====
section
/-! SUPPORT. What each shared operation, each command and each step can do, said once (for a proof to cite). -/

namespace Sys2Proof.Machine

/-- A draw that finds `index` = 624 regenerates and takes the new word 0. -/
theorem draw_exhausted {s : State} (h : s.index = 624#10) :
    draw s = some (temper ((regenMt s.mt).word 0), { s with mt := regenMt s.mt, index := 1#10 }) := by
  simp only [draw, refill, h, if_true]
  rfl

/-- A draw that finds `index` below 624 takes the word there. -/
theorem draw_buffered {s : State} (h : s.index.toNat < 624) :
    draw s = some (temper (s.mt.word ⟨s.index.toNat, h⟩), { s with index := s.index + 1#10 }) := by
  have h' : s.index ≠ 624#10 := by intro e; simp [e] at h
  simp [draw, refill, h', h]

/-- Where `index` is above 624 there is no draw. -/
theorem draw_illFormed {s : State} (h : 624 < s.index.toNat) : draw s = none := by
  have h' : s.index ≠ 624#10 := by intro e; simp [e] at h
  have h'' : ¬ s.index.toNat < 624 := by omega
  simp [draw, refill, h', h'']

/-- Everything a draw can do. -/
theorem draw_cases {s t : State} {r : U32} (h : draw s = some (r, t)) :
    (s.index = 624#10 ∧ r = temper ((regenMt s.mt).word 0) ∧ t = { s with mt := regenMt s.mt, index := 1#10 }) ∨
    (∃ hi : s.index.toNat < 624, r = temper (s.mt.word ⟨s.index.toNat, hi⟩) ∧ t = { s with index := s.index + 1#10 }) := by
  rcases Nat.lt_trichotomy s.index.toNat 624 with hl | he | hg
  · rw [draw_buffered hl] at h
    simp only [Option.some.injEq, Prod.mk.injEq] at h
    exact .inr ⟨hl, h.1.symm, h.2.symm⟩
  · have he' : s.index = 624#10 := BitVec.eq_of_toNat_eq (by simpa using he)
    rw [draw_exhausted he'] at h
    simp only [Option.some.injEq, Prod.mk.injEq] at h
    exact .inl ⟨he', h.1.symm, h.2.symm⟩
  · rw [draw_illFormed hg] at h; simp at h

/-- A draw changes `mt` and `index` and nothing else. -/
theorem draw_frame {s t : State} {r : U32} (h : draw s = some (r, t)) :
    t = { s with mt := t.mt, index := t.index } := by
  rcases draw_cases h with ⟨_, _, rfl⟩ | ⟨_, _, rfl⟩ <;> rfl

/-- The fields a draw leaves as they are. -/
theorem draw_fields {s t : State} {r : U32} (h : draw s = some (r, t)) :
    t.seeded = s.seeded ∧ t.key = s.key ∧ t.keyReads = s.keyReads ∧ t.inputs = s.inputs ∧ t.trace = s.trace ∧
      t.resets = s.resets := by
  rcases draw_cases h with ⟨_, _, rfl⟩ | ⟨_, _, rfl⟩ <;> exact ⟨rfl, rfl, rfl, rfl, rfl, rfl⟩

/-- From a legal index there is a draw, and it leaves a legal index. -/
theorem draw_of_legal {s : State} (h : s.index.toNat ≤ 624) :
    ∃ r t, draw s = some (r, t) ∧ t.index.toNat ≤ 624 := by
  rcases Nat.lt_or_ge s.index.toNat 624 with hl | hg
  · refine ⟨_, _, draw_buffered hl, ?_⟩
    simp only [BitVec.toNat_add, BitVec.toNat_ofNat]
    omega
  · have e : s.index = 624#10 := BitVec.eq_of_toNat_eq (by simp; omega)
    refine ⟨_, _, draw_exhausted e, ?_⟩
    show (1#10).toNat ≤ 624
    decide

/-- `NEXT_U32` where `SEEDED` = 0. -/
theorem execNextU32_unseeded {s : State} (h : s.seeded = false) : execNextU32 s = .next (raise .errUnseeded s) := by
  simp [execNextU32, isUnseeded, h]

/-- `NEXT_U32` where `SEEDED` = 1 and there is a draw. -/
theorem execNextU32_of_draw {s t : State} {r : U32} (h : s.seeded = true) (hd : draw s = some (r, t)) :
    execNextU32 s = .next (respond .ok (zext64 r) t) := by
  simp [execNextU32, isUnseeded, h, hd]

/-- `NEXT_F64` where `SEEDED` = 0. -/
theorem execNextF64_unseeded {s : State} (h : s.seeded = false) : execNextF64 s = .next (raise .errUnseeded s) := by
  simp [execNextF64, isUnseeded, h]

/-- `NEXT_F64` where `SEEDED` = 1 and there are two draws. -/
theorem execNextF64_of_draws {s t u : State} {r1 r2 : U32} (h : s.seeded = true) (h1 : draw s = some (r1, t))
    (h2 : draw t = some (r2, u)) : execNextF64 s = .next (respond .ok (f64Bits (f64Numerator r1 r2)) u) := by
  simp [execNextF64, isUnseeded, h, h1, h2]

/-- `SEED_ARRAY` with an empty key. -/
theorem execSeedArray_empty (s : State) : execSeedArray 0#32 s = .next (raise .errEmptyKey s) := by
  simp [execSeedArray, keyLength]

/-- `SEED_ARRAY` with a key of at least one word. -/
theorem execSeedArray_nonempty {len : U32} (h : len ≠ 0#32) (s : State) :
    execSeedArray len s = .next (respond .ok 0#64 (markSeeded (arraySeed len.toNat s))) := by
  have : len.toNat ≠ 0 := fun e => h (BitVec.eq_of_toNat_eq (by simpa using e))
  simp [execSeedArray, keyLength, this]

/-- Everything `NEXT_U32` can answer as a next state. -/
theorem execNextU32_cases {s t : State} (h : execNextU32 s = .next t) :
    (s.seeded = false ∧ t = raise .errUnseeded s) ∨
    (s.seeded = true ∧ ∃ r u, draw s = some (r, u) ∧ t = respond .ok (zext64 r) u) := by
  unfold execNextU32 at h
  cases hs : s.seeded with
  | false =>
    simp only [isUnseeded, hs, Bool.not_false, if_true, Host.Outcome.next.injEq] at h
    exact .inl ⟨rfl, h.symm⟩
  | true =>
    simp only [isUnseeded, hs, Bool.not_true, Bool.false_eq_true, if_false] at h
    cases hd : draw s with
    | none => simp [hd] at h
    | some p =>
      simp only [hd, Host.Outcome.next.injEq] at h
      exact .inr ⟨rfl, p.1, p.2, rfl, h.symm⟩

/-- Everything `NEXT_F64` can answer as a next state. -/
theorem execNextF64_cases {s t : State} (h : execNextF64 s = .next t) :
    (s.seeded = false ∧ t = raise .errUnseeded s) ∨
    (s.seeded = true ∧ ∃ r1 u r2 v, draw s = some (r1, u) ∧ draw u = some (r2, v) ∧
      t = respond .ok (f64Bits (f64Numerator r1 r2)) v) := by
  unfold execNextF64 at h
  cases hs : s.seeded with
  | false =>
    simp only [isUnseeded, hs, Bool.not_false, if_true, Host.Outcome.next.injEq] at h
    exact .inl ⟨rfl, h.symm⟩
  | true =>
    simp only [isUnseeded, hs, Bool.not_true, Bool.false_eq_true, if_false] at h
    cases hd : draw s with
    | none => simp [hd] at h
    | some p =>
      obtain ⟨r1, u⟩ := p
      simp only [hd] at h
      cases he : draw u with
      | none => simp [he] at h
      | some q =>
        simp only [he, Host.Outcome.next.injEq] at h
        exact .inr ⟨rfl, r1, u, q.1, q.2, rfl, he, h.symm⟩

/-- Everything `SEED_ARRAY` can answer. -/
theorem execSeedArray_cases {len : U32} {s t : State} (h : execSeedArray len s = .next t) :
    (len = 0#32 ∧ t = raise .errEmptyKey s) ∨
    (len ≠ 0#32 ∧ t = respond .ok 0#64 (markSeeded (arraySeed len.toNat s))) := by
  by_cases hl : len = 0#32
  · subst hl
    simp only [execSeedArray, keyLength, BitVec.toNat_ofNat, Nat.zero_mod, if_true, Host.Outcome.next.injEq] at h
    exact .inl ⟨rfl, h.symm⟩
  · have : len.toNat ≠ 0 := fun e => hl (BitVec.eq_of_toNat_eq (by simpa using e))
    simp only [execSeedArray, keyLength, this, if_false, Host.Outcome.next.injEq] at h
    exact .inr ⟨hl, h.symm⟩

/-- Everything `SEED_SCALAR` can answer. -/
theorem execSeedScalar_cases {seed : U32} {s t : State} (h : execSeedScalar seed s = .next t) :
    t = respond .ok 0#64 (markSeeded { s with mt := scalarInit seed s.mt }) := by
  simp only [execSeedScalar, Host.Outcome.next.injEq] at h
  exact h.symm

/-- Everything an accepted command word can lead to. -/
theorem acceptCommand_cases {cw : CmdWord} {s t : State} (h : acceptCommand cw s = .next t) :
    (∃ r, decode cw = .error r ∧ t = raise .errIllegal s) ∨ (∃ i, decode cw = .ok i ∧ exec i s = .next t) := by
  unfold acceptCommand at h
  split at h
  · exact .inr ⟨_, by assumption, h⟩
  · simp only [Host.Outcome.next.injEq] at h
    exact .inl ⟨_, by assumption, h.symm⟩

/-- A step whose next input is a command word accepts it. -/
theorem step_command {s : State} {cw : CmdWord} {rest : List Input} (h : s.inputs = .command cw :: rest) :
    step s = acceptCommand cw { s with inputs := rest } := by
  simp [step, advance, h, acceptInput]

/-- A step whose next input is a reset resets. -/
theorem step_reset {s : State} {rest : List Input} (h : s.inputs = .reset :: rest) :
    step s = .next (applyReset { s with inputs := rest }) := by
  simp [step, advance, h, acceptInput]

/-- Everything a step can do. -/
theorem step_cases {s t : State} (h : step s = .next t) :
    (s.inputs = [] ∧ t = s) ∨
    (∃ cw rest, s.inputs = .command cw :: rest ∧ acceptCommand cw { s with inputs := rest } = .next t) ∨
    (∃ ws rest, s.inputs = .key ws :: rest ∧ t = { s with inputs := rest, key := Memory.ofWords 0 ws }) ∨
    (∃ j w rest, s.inputs = .keyWord j w :: rest ∧ t = { s with inputs := rest, key := s.key.write j w }) ∨
    (∃ rest, s.inputs = .reset :: rest ∧ t = applyReset { s with inputs := rest }) := by
  unfold step advance at h
  split at h
  · simp only [Host.Outcome.next.injEq] at h; exact .inl ⟨by assumption, h.symm⟩
  · rename_i x rest hx
    cases x with
    | command cw => exact .inr (.inl ⟨cw, rest, hx, h⟩)
    | key ws =>
      simp only [acceptInput, Host.Outcome.next.injEq] at h
      exact .inr (.inr (.inl ⟨ws, rest, hx, h.symm⟩))
    | keyWord j w =>
      simp only [acceptInput, Host.Outcome.next.injEq] at h
      exact .inr (.inr (.inr (.inl ⟨j, w, rest, hx, h.symm⟩)))
    | reset =>
      simp only [acceptInput, Host.Outcome.next.injEq] at h
      exact .inr (.inr (.inr (.inr ⟨rest, hx, h.symm⟩)))

end Sys2Proof.Machine
end

