-- ==== Sys2Proof/Laws/PerInstr.lean ====
section
/-! SUPPORT. A statement per command: its command word selects its own row of the opcode map of R42 and no other, and it is
well formed. -/

namespace Sys2Proof.Laws.TableRow

/-- The word of `i` selects the row R42 gives `i`, and no other row. -/
def Statement (i : Instr) : Prop :=
  i.wellFormed = true ∧ selects (encode i) (opcodeRow i) = true ∧
    ∀ r ∈ opcodeMap, selects (encode i) r = true → r = opcodeRow i

/-- `AND` acts on the opcode and on the argument of a word separately. -/
theorem and_append (op op' : BitVec 8) (arg arg' : BitVec 32) :
    (op ++ arg) &&& (op' ++ arg') = (op &&& op') ++ (arg &&& arg') := by
  ext k hk
  simp only [BitVec.getElem_and, BitVec.getElem_append]
  split <;> simp

theorem append_eq_append {op op' : BitVec 8} {arg arg' : BitVec 32} (h : op ++ arg = op' ++ arg') : op = op' := by
  have : (op ++ arg).extractLsb' 32 8 = (op' ++ arg').extractLsb' 32 8 := by rw [h]
  rwa [BitVec.extractLsb'_append_eq_left, BitVec.extractLsb'_append_eq_left] at this

/-- A row whose mask has all opcode bits is selected only by words with the row's opcode. -/
theorem opcode_of_selects {op : BitVec 8} {arg : BitVec 32} {rop : BitVec 8} {rarg mask : BitVec 32}
    (h : selects (op ++ arg) ⟨rop ++ rarg, 0xFF#8 ++ mask⟩ = true) : op = rop := by
  simp only [selects, beq_iff_eq, and_append] at h
  have := append_eq_append h
  rwa [show (0xFF#8) = BitVec.allOnes 8 from rfl, BitVec.and_allOnes] at this

/-- The other rows are not selected by a word with the opcode of `i`. -/
theorem only_own_row (i : Instr) : ∀ r ∈ opcodeMap, selects (encode i) r = true → r = opcodeRow i := by
  intro r hr h
  simp only [opcodeMap, opcodeRow, List.mem_cons, List.not_mem_nil, or_false] at hr
  unfold encode at h
  rcases hr with rfl | rfl | rfl | rfl
  · have := opcode_of_selects (rop := 0x01#8) (rarg := 0#32) (mask := 0#32) h
    cases i <;> simp_all [opcodeOf, opcodeRow]
  · have := opcode_of_selects (rop := 0x02#8) (rarg := 0#32) (mask := 0#32) h
    cases i <;> simp_all [opcodeOf, opcodeRow]
  · have := opcode_of_selects (rop := 0x03#8) (rarg := 0#32) (mask := 0xFFFFFFFF#32) h
    cases i <;> simp_all [opcodeOf, opcodeRow]
  · have := opcode_of_selects (rop := 0x04#8) (rarg := 0#32) (mask := 0xFFFFFFFF#32) h
    cases i <;> simp_all [opcodeOf, opcodeRow]

/-- The mask of a seeding row leaves the opcode and drops the argument. -/
theorem selects_seeding (op : BitVec 8) (arg : BitVec 32) :
    selects (op ++ arg) ⟨op ++ 0#32, 0xFF#8 ++ 0#32⟩ = true := by
  simp only [selects, beq_iff_eq, and_append]
  rw [show (0xFF#8) = BitVec.allOnes 8 from rfl, BitVec.and_allOnes, BitVec.and_zero]

theorem seedScalar (seed : U32) : Statement (.seedScalar seed) :=
  ⟨rfl, selects_seeding 0x01#8 seed, only_own_row _⟩

theorem seedArray (len : U32) : Statement (.seedArray len) :=
  ⟨rfl, selects_seeding 0x02#8 len, only_own_row _⟩

theorem nextU32 : Statement .nextU32 :=
  ⟨rfl, by decide, only_own_row _⟩

theorem nextF64 : Statement .nextF64 :=
  ⟨rfl, by decide, only_own_row _⟩

end Sys2Proof.Laws.TableRow
end

