-- ==== Sys2Proof/Tests/Slice0.lean ====
section
/-! SUPPORT. Tests. Expected values are the spec's own vectors (95_test_vectors.md; the id stands at each test) or are read off
its rules; no value comes from running the model. The witnesses at the end show that the hypotheses of the statements in
Certificates/Slice0/Obligations.lean can be met, at the boundaries of each clause. -/

namespace Sys2Proof.Tests

open Sys2Proof Sys2Proof.Machine Sys2Proof.Safety

/-! ## Ill-formed terms -/

/-- R47: a seed of 2^32 is out of range, 2^32 − 1 is not. -/
theorem test_illFormed_seedScalar :
    (Line.seedScalar 4294967296).wellFormed = false ∧ (Line.seedScalar 4294967295).wellFormed = true := by decide
theorem test_illFormed_seedArray :
    (Line.seedArray 4294967296).wellFormed = false ∧ (Line.seedArray 0).wellFormed = true := by decide
/-- R48: no key word, and a key word out of range. -/
theorem test_illFormed_key_empty : (Line.key []).wellFormed = false := by decide
theorem test_illFormed_key_word : (Line.key [0, 4294967296]).wellFormed = false := by decide
theorem test_illFormed_word :
    (Line.word 0x10000000000).wellFormed = false ∧ (Line.word 0xFFFFFFFFFF).wellFormed = true := by decide

/-! ## Command words, bit by bit from R38 and R42: OP in bits 39 to 32, ARG in bits 31 to 0 -/

/-- V-S3: OP 00000001, ARG 69 = 1000101. -/
theorem test_decode_seedScalar :
    decode 0b0000000100000000000000000000000001000101#40 = .ok (.seedScalar 69#32) := by rfl
/-- V-A3: OP 00000010, ARG 4 = 100. -/
theorem test_decode_seedArray :
    decode 0b0000001000000000000000000000000000000100#40 = .ok (.seedArray 4#32) := by rfl
/-- V-D6: OP 00000011, ARG 0. -/
theorem test_decode_nextU32 : decode 0b0000001100000000000000000000000000000000#40 = .ok .nextU32 := by rfl
/-- V-D8: OP 00000100, ARG 0. -/
theorem test_decode_nextF64 : decode 0b0000010000000000000000000000000000000000#40 = .ok .nextF64 := by rfl
/-- V-D9: ARG of `NEXT_F64` not 0 in its top bit. -/
theorem test_decode_argNotZero : decode 0x0480000000#40 = .error (.argNotZero 4#8 0x80000000#32) := by rfl
/-- V-D12: OP 0x81 is not OP 0x01. -/
theorem test_decode_unusedOpcode : decode 0x8100000045#40 = .error (.unusedOpcode 0x81#8) := by rfl
/-- R38: `cw` = `OP` × 2^32 + `ARG`. -/
theorem test_encode_seedScalar : encode (.seedScalar 0xFFFFFFFF#32) = 0x01FFFFFFFF#40 := by decide
theorem test_encode_seedArray : encode (.seedArray 625#32) = 0x0200000271#40 := by decide
theorem test_decodeTableWord : decodeTableWord 40 0x0100000045 = some (.seedScalar 69#32) := by rfl

/-! ## The procedures on the spec's vectors -/

/-- V-S0d: the scalar recurrence with all bits of `p` set, at the last word. -/
theorem test_scalarNext_wraps : scalarNext 0xFFFFFFFF#32 623 = 0x4FE1DCDB#32 := by decide
/-- V-S0e: the top bit of `p` comes down to bit 1. -/
theorem test_scalarNext_topBit : scalarNext 0x80000000#32 5 = 0x580F12CF#32 := by decide

/-- A vector with `a`, `b`, `c`, `d` in the words `i` − 1, `i`, 0 and 623 (the later ones win), zeros elsewhere. -/
def vec (i : Fin 624) (a b c d : U32) : Mt :=
  Mt.setWord (Mt.setWord (Mt.setWord (Mt.setWord (Vector.replicate 624 0#32) 623 d) 0 c) i b) (i - 1) a

/-- V-A0a: `MIX1` iteration 0 of the key `[0]`. -/
theorem test_mix1_first : (mix1Step [(0, 0#32)] 1
    ⟨⟨vec 1 0x012BD6AA#32 0x82D2AB13#32 0 0, 1⟩, 0, []⟩).cur.mt.word 1 = 0xFF8909B1#32 := by decide +kernel
/-- V-A0f: iteration 1 of the four-word key adds the key word 0x234 and `j` = 1. -/
theorem test_mix1_addsKeyAndIndex : (mix1Step [(0, 0x123#32), (1, 0x234#32), (2, 0x345#32), (3, 0x456#32)] 4
    ⟨⟨vec 2 0xFF890AD4#32 0x342096B7#32 0 0, 2⟩, 1, [0]⟩).cur.mt.word 2 = 0x9766A291#32 := by decide +kernel
/-- V-A0c, V-A0d: at `i` = 623 the new word goes to word 0 as well, and `i` is 1 and `j` is 0 next. -/
theorem test_mix1_wraps :
    let m := mix1Step [(0, 0#32)] 1 ⟨⟨vec 623 0x533E7E19#32 0xAD2949E2#32 0 0xAD2949E2#32, 623⟩, 0, []⟩
    m.cur.mt.word 623 = 0xDDE8BEDA#32 ∧ m.cur.mt.word 0 = 0xDDE8BEDA#32 ∧ m.cur.i = 1 ∧ m.j = 0 ∧ m.reads = [0] := by
  decide +kernel
/-- V-A0i: the first `MIX2` iteration subtracts `i` = 2. -/
theorem test_mix2_first :
    (mix2Step ⟨vec 2 0x5B842EB4#32 0xB214FCBD#32 0 0, 2⟩).mt.word 2 = 0x1DAE48D2#32 := by decide +kernel
/-- V-A0i: the last `MIX2` iteration, at `i` = 1. -/
theorem test_mix2_last :
    (mix2Step ⟨vec 1 0xAD040189#32 0x5B842EB4#32 0xAD040189#32 0, 1⟩).mt.word 1 = 0x2DB73A62#32 := by decide +kernel
/-- V-T7: both halves of `y` and the mask. -/
theorem test_twist_mixed : twist 0x12345678#32 0x9ABCDEF1#32 0x0F0F0F0F#32 = 0x9B59D0A8#32 := by decide
/-- V-T4: the low bits of `u` and the top bit of `v` are ignored. -/
theorem test_twist_ignores : twist 0x7FFFFFFF#32 0x80000000#32 0#32 = 0#32 := by decide
/-- V-R1: iteration 227 takes the new word 0 as its third operand. -/
theorem test_regenCell_227 :
    (regenCell 227 (vec 228 0x9A49043D#32 0xA3CD64BF#32 0x9B0AFA27#32 0)).word 227 = 0x53E4F8A7#32 := by decide +kernel
/-- V-R1: iteration 623 takes the new word 0 as its second operand and word 396 as its third. -/
theorem test_regenCell_623 :
    (regenCell 623 (vec 397 0x453CCF7B#32 0 0x9B0AFA27#32 0x04C46D8C#32)).word 623 = 0xD1B102B7#32 := by decide +kernel
/-- V-M9. -/
theorem test_temper : temper 0xDEADBEEF#32 = 0xE016575D#32 := by decide
/-- V-F18: from two draws to the response. -/
theorem test_f64_fromDraws : f64Bits (f64Numerator 0xD82C07CD#32 0x629F6FBE#32) = 0x3FEB0580F98A7DBE#64 := by decide
/-- V-F11. -/
theorem test_f64Bits : f64Bits 320255973571806 = 0x3FA2345678ABCDE0#64 := by decide

/-! ## Commands and steps on small states -/

/-- A state with the four words 0x9B0AFA27 (0), 5 (622) and 7 (623) set, a key of two words, and these inputs. -/
def st (seeded : Bool) (index : BitVec 10) (inputs : List Input) : State where
  mt := vec 623 5#32 7#32 0x9B0AFA27#32 7#32
  index := index
  seeded := seeded
  key := [(0, 5#32), (1, 7#32)]
  keyReads := []
  inputs := inputs
  trace := []
  resets := 1

/-- A draw from such a state below 624. -/
theorem draw_st {xs : List Input} (n : Nat) (h : n < 624) (w : U32) (hw : (vec 623 5#32 7#32 0x9B0AFA27#32 7#32).word ⟨n, h⟩ = w) :
    draw (st true (BitVec.ofNat 10 n) xs) = some (temper w, { st true (BitVec.ofNat 10 n) xs with index := BitVec.ofNat 10 n + 1#10 }) := by
  have hn : (BitVec.ofNat 10 n).toNat = n := by simp; omega
  have hl : (st true (BitVec.ofNat 10 n) xs).index.toNat < 624 := by show (BitVec.ofNat 10 n).toNat < 624; omega
  rw [draw_buffered hl, ← hw]
  have e : (⟨(st true (BitVec.ofNat 10 n) xs).index.toNat, hl⟩ : Fin 624) = ⟨n, h⟩ := Fin.ext hn
  rw [e]
  rfl

/-- The response of a single step. -/
def answer (s : State) : Option (Nat × Nat) :=
  match step s with
  | .next t => (newResponse s t).map fun r => ((statusCode r.status).toNat, r.data.toNat)
  | _ => none

/-- V-D1 to V-D11: the responses to reserved words, with `SEEDED` = 0 and with `SEEDED` = 1. -/
theorem test_illegal_word :
    answer (st false 3#10 [.command 0x0300000001#40]) = some (1, 0) ∧ answer (st true 3#10 [.command 0#40]) = some (1, 0) := by
  decide +kernel
/-- P3: unseeded extraction, status 2. -/
theorem test_unseeded :
    answer (st false 3#10 [.command 0x0300000000#40]) = some (2, 0) ∧
    answer (st false 3#10 [.command 0x0400000000#40]) = some (2, 0) := by decide +kernel
/-- P3: an empty key, status 3, seeded or not. -/
theorem test_emptyKey :
    answer (st false 3#10 [.command 0x0200000000#40]) = some (3, 0) ∧
    answer (st true 3#10 [.command 0x0200000000#40]) = some (3, 0) := by decide +kernel
/-- R57, V-S3: the response to a scalar seeding. -/
theorem test_seedScalar_response : answer (st false 3#10 [.command 0x0100000045#40]) = some (0, 0) := by decide +kernel
/-- R60: the response to an array seeding. -/
theorem test_seedArray_response : answer (st false 3#10 [.command 0x0200000002#40]) = some (0, 0) := by decide +kernel
/-- V-M10 (R72): the word 0x9B0AFA27 comes out tempered, zero-extended. -/
theorem test_nextU32_tempers : answer (st true 0#10 [.command 0x0300000000#40]) = some (0, 0xD091BB5C) := by decide +kernel
/-- R72 (b): at `index` 623 the last word comes out, `index` is 624, and the vector is as it was. -/
theorem test_nextU32_atTheEnd :
    exec .nextU32 (st true 623#10 []) = .next { st true 623#10 [] with
      index := 624#10, trace := [⟨.ok, zext64 (temper 7#32)⟩] } :=
  execNextU32_of_draw rfl (draw_st 623 (by decide) 7#32 (by decide +kernel))
/-- R77 (c): `NEXT_F64` at `index` 622 takes the words 622 and 623, in this order. -/
theorem test_nextF64_order :
    exec .nextF64 (st true 622#10 []) = .next { st true 622#10 [] with
      index := 624#10, trace := [⟨.ok, f64Bits (f64Numerator (temper 5#32) (temper 7#32))⟩] } :=
  execNextF64_of_draws rfl (draw_st 622 (by decide) 5#32 (by decide +kernel)) (draw_st 623 (by decide) 7#32 (by decide +kernel))
/-- R93: a reset clears `SEEDED` and answers nothing. -/
theorem test_reset :
    (match step (st true 3#10 [.reset]) with | .next t => (t.seeded, t.trace, t.resets) | _ => (true, [], 0)) =
      (false, [], 2) := by decide +kernel
/-- R87: the decode error comes before the command's own check. -/
theorem test_priority : answer (st false 3#10 [.command 0x0300000007#40]) = some (1, 0) := by decide +kernel
/-- R103: from reset, a program's first command runs in the first step after it is presented. -/
theorem test_firstCommand_afterReset :
    step (State.reset.withFetchWord 40 0x0300000000) = .next { State.reset with trace := [⟨.errUnseeded, 0#64⟩] } := by rfl
/-- R48: program text to inputs (lines of P5 and P3). -/
theorem test_text :
    assembleText ['.','k','e','y',' ','0','x','1','2','3',',',' ','7','\n','s','e','e','d','_','a','r','r','a','y',' ','2',';','x'] =
      some [.key [0x123#32, 7#32], .command 0x0200000002#40] := by decide +kernel

/-- Log entry 10: the underscore of R38's notation is no digit of the text. -/
theorem test_text_underscore : numeral ['0', 'x', '0', '3', '_', '0'] = none ∧ numeral ['0', 'x', '0', '3', '0'] = some 48 := by
  decide

/-! ## Witnesses: the hypotheses of the statements can be met, at each clause's boundary -/

theorem witness_decode_ok : decode 0x01FFFFFFFF#40 = .ok (.seedScalar 0xFFFFFFFF#32) := by rfl
theorem witness_selects :
    opcodeRow .nextF64 ∈ opcodeMap ∧ selects 0x0400000000#40 (opcodeRow .nextF64) = true ∧
    (∀ r ∈ opcodeMap, selects 0x0400000001#40 r = false) := by decide
theorem witness_presented_command :
    (st true 3#10 [.command 0x0300000000#40]).inputs = .command 0x0300000000#40 :: [] ∧
    decode 0x0300000000#40 = .ok .nextU32 := ⟨rfl, rfl⟩
/-- The reserved words at the edges of the ranges of R44: OP 0, 5 and 0xFF, and 3 and 4 with ARG 1 and 0xFFFFFFFF. -/
theorem witness_reserved_words :
    (0x00FFFFFFFF#40).toNat / 2 ^ 32 = 0 ∧ 5 ≤ (0x0500000000#40).toNat / 2 ^ 32 ∧ 5 ≤ (0xFFFFFFFFFF#40).toNat / 2 ^ 32 ∧
    ((0x0300000001#40).toNat / 2 ^ 32 = 3 ∧ (0x0300000001#40).toNat % 2 ^ 32 ≠ 0) ∧
    ((0x04FFFFFFFF#40).toNat / 2 ^ 32 = 4 ∧ (0x04FFFFFFFF#40).toNat % 2 ^ 32 ≠ 0) := by decide
theorem witness_idle : (st true 3#10 []).inputs = [] := rfl
theorem witness_reset_input : (st true 3#10 [.reset]).inputs = .reset :: [] := rfl
theorem witness_key_input : (st true 3#10 [.key [1#32]]).inputs = .key [1#32] :: [] := rfl
/-- An index written is not the only one: 1 is written, 0 stays. -/
theorem witness_keyWord_input :
    (st true 3#10 [.keyWord 1 9#32]).inputs = .keyWord 1 9#32 :: [] ∧ (0 : Nat) ≠ 1 := ⟨rfl, by decide⟩
/-- A step that is neither a command nor a reset. -/
theorem witness_other_step :
    (∃ t, step (st true 3#10 [.key [1#32]]) = .next t) ∧
    (∀ cw, (st true 3#10 [.key [1#32]]).inputs.head? ≠ some (.command cw)) ∧
    (st true 3#10 [.key [1#32]]).inputs.head? ≠ some .reset :=
  ⟨⟨_, rfl⟩, fun cw h => (by cases h), fun h => (by cases h)⟩
/-- Every command has a next state, of each outcome. -/
theorem witness_exec_next :
    (∃ t, exec (.seedScalar 0#32) (st false 3#10 []) = .next t) ∧ (∃ t, exec (.seedArray 1#32) (st false 3#10 []) = .next t) ∧
    (∃ t, exec .nextU32 (st true 624#10 []) = .next t) ∧ (∃ t, exec .nextF64 (st true 623#10 []) = .next t) :=
  ⟨⟨_, rfl⟩, ⟨_, execSeedArray_nonempty (by decide) _⟩, ⟨_, execNextU32_of_draw rfl (draw_exhausted rfl)⟩,
    ⟨_, execNextF64_of_draws rfl (draw_buffered (by decide +kernel)) (draw_exhausted rfl)⟩⟩
/-- R58 at both ends of the key length, and an iteration at which `i` wraps (`k` = 622). -/
theorem witness_mix1 : 1 ≤ 1 ∧ 1 < 2 ^ 32 ∧ 1 ≤ 2 ^ 32 - 1 ∧ 2 ^ 32 - 1 < 2 ^ 32 ∧ 1 + 622 % 623 = 623 := by decide
/-- R58: a word that is neither the one at the cursor nor word 0. -/
theorem witness_mix1_other_word : (5 : Fin 624) ≠ 623 ∧ (5 : Fin 624) ≠ 0 := by decide
theorem witness_mix2 : (Cursor.mk (vec 2 0 0 0 0) 2).i ≠ 0 ∧ (Cursor.mk (vec 2 0 0 0 0) 623).i = 623 := ⟨by decide, rfl⟩
theorem witness_len_nonzero : (1#32 : U32) ≠ 0#32 ∧ (0xFFFFFFFF#32 : U32) ≠ 0#32 := by decide
/-- An error answered with an empty key (R83), and one with `SEEDED` = 0 (R82), as the hypotheses of the converse clauses. -/
theorem witness_error_answers :
    (∃ t, exec (.seedArray 0#32) (st true 3#10 []) = .next t ∧ t.trace = (st true 3#10 []).trace ++ [⟨.errEmptyKey, 0#64⟩]) ∧
    (∃ t, exec .nextF64 (st false 3#10 []) = .next t ∧ t.trace = (st false 3#10 []).trace ++ [⟨.errUnseeded, 0#64⟩]) :=
  ⟨⟨_, rfl, rfl⟩, ⟨_, rfl, rfl⟩⟩
/-- Two different states whose key words 0 and 1 agree. -/
theorem witness_same_key :
    (∀ j : Nat, j < (2#32 : U32).toNat → ∃ w, (st false 3#10 []).key.read? j = some w ∧
      ({ st true 9#10 [] with key := [(0, 5#32), (1, 7#32), (2, 1#32)] } : State).key.read? j = some w) := by
  intro j hj
  have : j = 0 ∨ j = 1 := by simp at hj; omega
  rcases this with rfl | rfl
  · exact ⟨5#32, rfl, rfl⟩
  · exact ⟨7#32, rfl, rfl⟩
/-- R22: seed 0 leaves word 0 zero, and word 1 follows it. -/
theorem witness_zero_word_after_seeding : ∃ t, exec (.seedScalar 0#32) (st false 3#10 []) = .next t ∧
    t.mt.word ((1 : Fin 624) - 1) = 0#32 ∧ (1 : Fin 624) ≠ 0 :=
  ⟨_, rfl, by
    show (scalarInit 0#32 (st false 3#10 []).mt).word 0 = 0#32
    unfold scalarInit
    exact fold_induction (fun _ (m : Mt) => m.word 0 = 0#32) 623 _ _ (Mt.word_setWord_self _ _ _) fun k h m e => by
      rw [Mt.word_setWord_of_ne]
      · exact e
      · intro c; simp [Fin.ext_iff] at c, by decide⟩
/-- R64: different `u` and `v` that agree on the bits that count. -/
theorem witness_twist_bits :
    (0x7FFFFFFF#32).getLsbD 31 = (0#32).getLsbD 31 ∧ ∀ k : Nat, k < 31 → (0x80000000#32).getLsbD k = (0#32).getLsbD k := by
  decide
/-- R65: word numbers at the ends of the table's rows. -/
theorem witness_regen_rows :
    (0 : Fin 624).val ≤ 226 ∧ (226 : Fin 624).val ≤ 226 ∧ (227 ≤ (227 : Fin 624).val ∧ (227 : Fin 624).val ≤ 622) ∧
    (227 ≤ (622 : Fin 624).val ∧ (622 : Fin 624).val ≤ 622) := by decide
/-- Two different vectors that agree on all the regeneration reads. -/
theorem witness_low_bits_of_word_zero :
    ((vec 2 0 0 1#32 0).word 0).getLsbD 31 = ((vec 2 0 0 2#32 0).word 0).getLsbD 31 ∧
    ∀ i : Fin 624, i ≠ 0 → (vec 2 0 0 1#32 0).word i = (vec 2 0 0 2#32 0).word i := by
  refine ⟨by decide +kernel, fun i hi => ?_⟩
  simp only [vec, Mt.word_setWord]
  by_cases h1 : i = 2 - 1 <;> by_cases h2 : i = 2 <;> simp [h1, h2, hi]
theorem witness_zero_vector : ∀ i, Mt.word (Vector.replicate 624 0#32) i = 0#32 := by
  intro i; simp [Mt.word]
/-- The indices at which a draw changes its case: 0, 622, 623, 624. -/
theorem witness_indices :
    (st true 624#10 []).seeded = true ∧ (st true 624#10 []).index.toNat = 624 ∧ (st true 623#10 []).index.toNat = 623 ∧
    (st true 622#10 []).index.toNat + 1 < 624 ∧ (st true 0#10 []).index.toNat + 1 < 624 := by decide +kernel
theorem witness_unseeded : (st false 3#10 []).seeded = false := rfl
/-- U9 at both ends: 625 and 1023. -/
theorem witness_illFormed_index :
    (st true 625#10 []).seeded = true ∧ 624 < (st true 625#10 []).index.toNat ∧ 624 < (st true 1023#10 []).index.toNat := by
  decide +kernel
/-- R74 at both ends of its range. -/
theorem witness_numerators : 0 < 1 ∧ 1 < 2 ^ 53 ∧ 0 < 2 ^ 53 - 1 ∧ 2 ^ 53 - 1 < 2 ^ 53 := by decide
theorem witness_double_answer : ∃ t d, exec .nextF64 (st true 622#10 []) = .next t ∧
    t.trace = (st true 622#10 []).trace ++ [⟨.ok, d⟩] := ⟨_, _, test_nextF64_order, rfl⟩
/-- Two `NEXT_U32` in a row, the first at `index` 622. -/
theorem witness_two_words : ∃ t u, exec .nextU32 (st true 622#10 []) = .next t ∧ exec .nextU32 t = .next u ∧
    u.trace = (st true 622#10 []).trace ++ [⟨.ok, zext64 (temper 5#32)⟩, ⟨.ok, zext64 (temper 7#32)⟩] :=
  ⟨_, _, execNextU32_of_draw rfl (draw_st 622 (by decide) 5#32 (by decide +kernel)),
    execNextU32_of_draw rfl (draw_buffered (by decide +kernel)), by
      simp only [respond_trace]
      rw [show (7#32) = (vec 623 5#32 7#32 0x9B0AFA27#32 7#32).word 623 from by decide +kernel]
      rfl⟩
/-- R68: two draws presented to a state right after a seeding. -/
theorem witness_draws_after_seeding :
    (st true 624#10 (List.replicate 2 (.command 0x0300000000#40))).seeded = true ∧
    (st true 624#10 (List.replicate 2 (.command 0x0300000000#40))).index = 624#10 ∧ 1 ≤ 2 ∧
    (st true 624#10 (List.replicate 2 (.command 0x0300000000#40))).inputs = List.replicate 2 (.command 0x0300000000#40) :=
  ⟨rfl, rfl, by decide, rfl⟩
/-- R68: a double and a word, three draws, presented to a state right after a seeding. -/
theorem witness_mixed_extractions :
    (∀ i ∈ [Instr.nextF64, .nextU32], i = .nextU32 ∨ i = .nextF64) ∧ [Instr.nextF64, .nextU32] ≠ [] ∧
    3 = ([Instr.nextF64, .nextU32].map fun i => if i = .nextF64 then 2 else 1).sum ∧
    (st true 624#10 [.command 0x0400000000#40, .command 0x0300000000#40]).seeded = true ∧
    (st true 624#10 [.command 0x0400000000#40, .command 0x0300000000#40]).index = 624#10 ∧
    (st true 624#10 [.command 0x0400000000#40, .command 0x0300000000#40]).inputs =
      [Instr.nextF64, .nextU32].map (fun i => .command (encode i)) := ⟨by decide, by decide, by decide, rfl, rfl, rfl⟩
/-- R85: an error response to each kind of word: reserved, unseeded, empty key. -/
theorem witness_error_responses :
    (∃ t, step (st true 3#10 [.command 0#40]) = .next t ∧ t.trace = (st true 3#10 [.command 0#40]).trace ++ [⟨.errIllegal, 0#64⟩]) ∧
    (∃ t, step (st false 3#10 [.command 0x0300000000#40]) = .next t ∧
      t.trace = (st false 3#10 [.command 0x0300000000#40]).trace ++ [⟨.errUnseeded, 0#64⟩]) ∧
    (∃ t, step (st true 3#10 [.command 0x0200000000#40]) = .next t ∧
      t.trace = (st true 3#10 [.command 0x0200000000#40]).trace ++ [⟨.errEmptyKey, 0#64⟩]) ∧
    Status.errIllegal ≠ .ok ∧ Status.errUnseeded ≠ .ok ∧ Status.errEmptyKey ≠ .ok :=
  ⟨⟨_, rfl, rfl⟩, ⟨_, rfl, rfl⟩, ⟨_, rfl, rfl⟩, by decide, by decide, by decide⟩
/-- A legal state with `SEEDED` = 1 from which a step is taken. -/
theorem witness_legal_state : Inv (st true 624#10 [.keyWord 1 9#32]) ∧
    ∃ t, step (st true 624#10 [.keyWord 1 9#32]) = .next t :=
  ⟨⟨fun _ => (by decide +kernel), fun _ => .inl (by decide +kernel), by decide⟩, ⟨_, rfl⟩⟩
/-- Two unseeded states that differ in `index` and in `mt`. -/
theorem witness_unspecified_storage : (st false 3#10 [.command 0x0100000045#40]).seeded = false ∧
    ∃ (mt : Mt) (index : BitVec 10), ({ st false 3#10 [.command 0x0100000045#40] with mt := vec 9 1 2 3 4, index := 1000#10 } : State) =
      { st false 3#10 [.command 0x0100000045#40] with mt := mt, index := index } := ⟨rfl, _, _, rfl⟩
/-- The same as two states the same to the host, and two seeded ones, which are equal. -/
theorem witness_same_to_host :
    SameToHost (st false 3#10 [.command 0x0100000045#40])
      { st false 3#10 [.command 0x0100000045#40] with mt := vec 9 1 2 3 4, index := 1000#10 } ∧
    IndexLegal (st false 3#10 [.command 0x0100000045#40]) ∧
    SameToHost (st true 624#10 [.reset]) (st true 624#10 [.reset]) ∧ IndexLegal (st true 624#10 [.reset]) :=
  ⟨⟨rfl, rfl, rfl, rfl, rfl, rfl, fun h => (by cases h), fun h => (by cases h)⟩, fun h => (by cases h),
    ⟨rfl, rfl, rfl, rfl, rfl, rfl, fun _ => rfl, fun _ => rfl⟩, fun _ => (by decide +kernel)⟩
/-- The strict step on an error and on a success. -/
theorem witness_strict :
    strictStep (st true 3#10 [.command 0#40]) = .fault .errIllegal ∧ ∃ t, strictStep (st true 0#10 [.command 0x0300000000#40]) = .next t :=
  ⟨rfl, _, rfl⟩
theorem witness_operand_ranges : 4294967295 < 2 ^ 32 ∧ 2 ^ 32 ≤ 4294967296 := by decide

end Sys2Proof.Tests
end

section
/-! Running a presented command: what the decoder reads back from an encoded command, and the step on a state whose next input
is a command's word. -/

namespace Sys2Proof

/-- R38: the opcode of a command stands in the upper byte of its word. -/
@[simp] theorem opField_encode (i : Instr) : opField (encode i) = opcodeOf i :=
  BitVec.extractLsb'_append_eq_left

/-- R38: the argument of a command stands in the lower 32 bits of its word. -/
@[simp] theorem argField_encode (i : Instr) : argField (encode i) = argOf i :=
  BitVec.extractLsb'_append_eq_right

/-- R38, R43: the decoder reads a command back from its word. -/
@[simp] theorem decode_encode (i : Instr) : decode (encode i) = .ok i := by
  unfold decode
  rw [opField_encode, argField_encode]
  cases i with
  | seedScalar seed => simp [opcodeOf, argOf]
  | seedArray len => simp [opcodeOf, argOf]
  | nextU32 => simp [opcodeOf, argOf]
  | nextF64 => simp [opcodeOf, argOf]

/-- A 40-bit word is the command word of its own number. -/
@[simp] theorem commandWord_toNat (cw : CmdWord) : commandWord 40 cw.toNat = cw := by
  rw [commandWord, Nat.mod_eq_of_lt cw.isLt, BitVec.ofNat_toNat, BitVec.setWidth_eq]

end Sys2Proof

namespace Sys2Proof.Machine

/-- A word that decodes to a command is accepted by running the command. -/
theorem acceptCommand_of_decode_ok {cw : CmdWord} {i : Instr} (h : decode cw = .ok i) (s : State) :
    acceptCommand cw s = exec i s := by
  simp only [acceptCommand, h]

/-- The step takes a presented word off the list again and accepts it on the state before. -/
theorem step_presentNext (cw : CmdWord) (s : State) : step (presentNext cw s) = acceptCommand cw s :=
  step_command (presentNext_inputs cw s)

/-- Placing a 40-bit word by its number presents that word. -/
theorem withFetchWord_toNat (s : State) (cw : CmdWord) : s.withFetchWord 40 cw.toNat = presentNext cw s := by
  rw [State.withFetchWord, commandWord_toNat]

/-- Settles O6: the step accepts the word (`step_command`, `step_presentNext`), and accepting a word that decodes is `exec`;
the word that `withFetchWord` presents decodes to its command (`decode_encode`). -/
theorem stepRunsThePresentedCommand : Obligations.StepRunsThePresentedCommand := by
  unfold Obligations.StepRunsThePresentedCommand
  constructor
  · intro s cw rest i hinputs hdecode
    rw [step_command hinputs, acceptCommand_of_decode_ok hdecode]
  · intro s i
    rw [withFetchWord_toNat, step_presentNext, acceptCommand_of_decode_ok (decode_encode i)]

end Sys2Proof.Machine
end

section
namespace Sys2Proof.Machine

/-! The scalar recurrence, word by word (R56). -/

/-- R56: word 0 is the seed. -/
@[simp] theorem scalarInit_word_zero (seed : U32) (mt : Mt) : (scalarInit seed mt).word 0 = seed := by
  unfold scalarInit
  refine fold_induction (fun _ (m : Mt) => m.word 0 = seed) 623 _ _ (Mt.word_setWord_self _ _ _) fun k hk m ih => ?_
  rw [Mt.word_setWord_of_ne _ _ (by simp [Fin.ext_iff]), ih]

/-- The words 1 to `k` follow the scalar recurrence: what holds after `k` iterations of `SCALAR_INIT` (R56). -/
def FollowsRecurrenceUpTo (k : Nat) (m : Mt) : Prop :=
  ∀ i : Fin 624, i ≠ 0 → i.val ≤ k → m.word i = scalarNext (m.word (i - 1)) i.val

/-- `SCALAR_INIT` makes 623 iterations, and each writes the next word from the one before it. -/
theorem scalarInit_followsRecurrenceUpTo (seed : U32) (mt : Mt) : FollowsRecurrenceUpTo 623 (scalarInit seed mt) := by
  unfold scalarInit
  refine fold_induction FollowsRecurrenceUpTo 623 _ _ ?_ ?_
  · intro i hi hle
    exact absurd (Fin.ext (Nat.le_zero.mp hle)) hi
  · intro k hk m ih i hi hle
    have hpred : (i - 1).val = i.val - 1 := Fin.val_sub_one_of_ne_zero hi
    have hpos : i.val ≠ 0 := Fin.val_ne_zero_iff.mpr hi
    rw [Mt.word_setWord_of_ne (j := i - 1) _ _ (by rw [ne_eq, Fin.ext_iff, hpred]; show ¬ i.val - 1 = k + 1; omega)]
    by_cases hlast : i.val = k + 1
    · have hi' : i = ⟨k + 1, Nat.succ_lt_succ hk⟩ := Fin.ext hlast
      have hpred' : i - 1 = ⟨k, Nat.lt_succ_of_lt hk⟩ := Fin.ext (by rw [hpred, hlast]; rfl)
      rw [hpred', hi', Mt.word_setWord_self]
    · rw [Mt.word_setWord_of_ne _ _ (by rw [ne_eq, Fin.ext_iff]; exact hlast)]
      exact ih i hi (by omega)

/-- R56: every other word is the recurrence on the word before it. -/
theorem scalarInit_word_of_ne_zero (seed : U32) (mt : Mt) {i : Fin 624} (hi : i ≠ 0) :
    (scalarInit seed mt).word i = scalarNext ((scalarInit seed mt).word (i - 1)) i.val :=
  scalarInit_followsRecurrenceUpTo seed mt i hi (by omega)

/-- R49, R62: the vector before a scalar seeding leaves no mark on the one after it. -/
theorem scalarInit_eq_scalarInit (seed : U32) (mt mt' : Mt) : scalarInit seed mt = scalarInit seed mt' := by
  suffices h : ∀ n (hn : n < 624), (scalarInit seed mt).word ⟨n, hn⟩ = (scalarInit seed mt').word ⟨n, hn⟩ from
    Mt.ext_word fun i => h i.val i.isLt
  intro n
  induction n with
  | zero =>
    intro hn
    exact (scalarInit_word_zero seed mt).trans (scalarInit_word_zero seed mt').symm
  | succ n ih =>
    intro hn
    have hne : (⟨n + 1, hn⟩ : Fin 624) ≠ 0 := by simp [Fin.ext_iff]
    have hpred : (⟨n + 1, hn⟩ : Fin 624) - 1 = ⟨n, by omega⟩ := Fin.ext (Fin.val_sub_one_of_ne_zero hne)
    rw [scalarInit_word_of_ne_zero seed mt hne, scalarInit_word_of_ne_zero seed mt' hne, hpred, ih]

/-- R56, R22: a zero word is followed by its successor's number. -/
@[simp] theorem scalarNext_zero (i : Nat) : scalarNext 0#32 i = BitVec.ofNat 32 i := by
  simp [scalarNext, scramble]

end Sys2Proof.Machine
end

section
namespace Sys2Proof.Machine

/-! The twist, bit by bit (R64), and the regeneration, word by word (R65). -/

theorem getLsbD_upperMask {k : Nat} (hk : k < 32) : Config.upperMask.getLsbD k = decide (k = 31) := by
  revert k; decide

theorem getLsbD_lowerMask {k : Nat} (hk : k < 32) : Config.lowerMask.getLsbD k = decide (k ≠ 31) := by
  revert k; decide

/-- R64: bit 31 of `y` is that of `u`, the other bits are those of `v`. -/
theorem getLsbD_twistY (u v : U32) {k : Nat} (hk : k < 32) :
    (twistY u v).getLsbD k = if k = 31 then u.getLsbD 31 else v.getLsbD k := by
  rw [twistY, BitVec.getLsbD_or, BitVec.getLsbD_and, BitVec.getLsbD_and, getLsbD_upperMask hk, getLsbD_lowerMask hk]
  by_cases h : k = 31 <;> simp [h]

/-- R64: the shift brings `y` down by one bit, and the mask is applied where bit 0 of `v` is 1. -/
theorem getLsbD_twist (u v w : U32) {k : Nat} (hk : k < 32) :
    (twist u v w).getLsbD k =
      ((w.getLsbD k ^^ (if k = 31 then false else if k = 30 then u.getLsbD 31 else v.getLsbD (k + 1))) ^^
        (v.getLsbD 0 && Config.matrixA.getLsbD k)) := by
  have hshift : (twistY u v >>> 1).getLsbD k =
      if k = 31 then false else if k = 30 then u.getLsbD 31 else v.getLsbD (k + 1) := by
    rw [BitVec.getLsbD_ushiftRight, Nat.add_comm]
    by_cases h : k = 31
    · rw [if_pos h]; exact BitVec.getLsbD_of_ge _ _ (by omega)
    · rw [if_neg h, getLsbD_twistY u v (by omega)]
      simp
  have hmask : (if (twistY u v).getLsbD 0 then Config.matrixA else 0#32).getLsbD k =
      (v.getLsbD 0 && Config.matrixA.getLsbD k) := by
    rw [getLsbD_twistY u v (by decide)]
    cases v.getLsbD 0 <;> simp
  rw [twist, BitVec.getLsbD_xor, BitVec.getLsbD_xor, hshift, hmask]

/-- What the twist takes of its first two operands is zero: bit 31 of `u` and bits 30 to 0 of `v` (R64). -/
def TwistInputZero (u v : U32) : Prop := u.getLsbD 31 = false ∧ ∀ k < 31, v.getLsbD k = false

/-- A twist into a zero word gives zero only where all it takes of the other two is zero: bit 31 of the mask is set, so the
mask was not applied. -/
theorem twistInputZero_of_twist_eq_zero {u v : U32} (h : twist u v 0#32 = 0#32) : TwistInputZero u v := by
  have hbit {k : Nat} (hk : k < 32) :
      ((if k = 31 then false else if k = 30 then u.getLsbD 31 else v.getLsbD (k + 1)) ^^
        (v.getLsbD 0 && Config.matrixA.getLsbD k)) = false := by
    simpa only [h, BitVec.getLsbD_zero, Bool.false_xor] using (getLsbD_twist u v 0#32 hk).symm
  have hlow : v.getLsbD 0 = false := by
    simpa only [if_true, Bool.false_xor, show Config.matrixA.getLsbD 31 = true from rfl, Bool.and_true]
      using hbit (k := 31) (by decide)
  have hshift {k : Nat} (hk : k < 31) : (if k = 30 then u.getLsbD 31 else v.getLsbD (k + 1)) = false := by
    simpa only [if_neg (Nat.ne_of_lt hk), hlow, Bool.false_and, Bool.xor_false] using hbit (k := k) (by omega)
  refine ⟨hshift (k := 30) (by decide), fun k hk => ?_⟩
  cases k with
  | zero => exact hlow
  | succ k => simpa only [if_neg (show k ≠ 30 by omega)] using hshift (k := k) (by omega)

/-- A word is zero where the twists it is the second and the first operand of take zero of it. -/
theorem eq_zero_of_twistInputZero {u v w : U32} (hlow : TwistInputZero u v) (htop : TwistInputZero v w) : v = 0#32 := by
  refine BitVec.eq_of_getLsbD_eq fun k hk => ?_
  rw [BitVec.getLsbD_zero]
  by_cases h : k = 31
  · exact h ▸ htop.1
  · exact hlow.2 k (by omega)

/-- Operand `j` of iteration `i` of the regeneration: new where its iteration came before (R65). -/
def regenOperand (old new : Mt) (i j : Fin 624) : U32 := if j < i then new.word j else old.word j

/-- `m` is the vector `old` with its words below `k` regenerated: what holds after `k` iterations of `REGEN` (R65). -/
def RegeneratedUpTo (old : Mt) (k : Nat) (m : Mt) : Prop :=
  (∀ i : Fin 624, k ≤ i.val → m.word i = old.word i) ∧ ∀ i : Fin 624, i.val < k →
    m.word i = twist (old.word i) (regenOperand old m i (i + 1)) (regenOperand old m i (i + 397))

/-- `REGEN` makes 624 iterations, and iteration `k` writes word `k` from operands of which those below `k` are new. -/
theorem regenMt_regeneratedUpTo (mt : Mt) : RegeneratedUpTo mt 624 (regenMt mt) := by
  unfold regenMt
  refine fold_induction (RegeneratedUpTo mt) 624 _ _ ⟨fun _ _ => rfl, fun i hi => absurd hi (Nat.not_lt_zero _)⟩ ?_
  rintro k hk m ⟨hold, hnew⟩
  have hother {j : Fin 624} (hj : j.val ≠ k) : (regenCell ⟨k, hk⟩ m).word j = m.word j :=
    Mt.word_setWord_of_ne _ _ (by rwa [ne_eq, Fin.ext_iff])
  have hoperand {i : Fin 624} (hi : i.val ≤ k) (j : Fin 624) :
      regenOperand mt (regenCell ⟨k, hk⟩ m) i j = regenOperand mt m i j := by
    unfold regenOperand
    split
    · exact hother (by omega)
    · rfl
  have hnow (j : Fin 624) : m.word j = regenOperand mt m ⟨k, hk⟩ j := by
    unfold regenOperand
    split
    · rfl
    · exact hold j (Nat.le_of_not_lt ‹¬ j < _›)
  refine ⟨fun i hi => (hother (by omega)).trans (hold i (by omega)), fun i hi => ?_⟩
  rw [hoperand (by omega), hoperand (by omega)]
  by_cases hlast : i.val = k
  · obtain rfl : i = ⟨k, hk⟩ := Fin.ext hlast
    rw [regenCell, Mt.word_setWord_self, hold _ le_rfl, ← hnow, ← hnow]
  · rw [hother hlast]
    exact hnew i (by omega)

/-- R65: every new word is the twist of the old word and of the operands as they are when its iteration comes. -/
theorem regenMt_word (mt : Mt) (i : Fin 624) :
    (regenMt mt).word i =
      twist (mt.word i) (regenOperand mt (regenMt mt) i (i + 1)) (regenOperand mt (regenMt mt) i (i + 397)) :=
  (regenMt_regeneratedUpTo mt).2 i i.isLt

theorem val_add_one (i : Fin 624) : (i + 1).val = (i.val + 1) % 624 := Fin.val_add i 1

theorem val_add_397 (i : Fin 624) : (i + 397).val = (i.val + 397) % 624 := Fin.val_add i 397

theorem val_sub_227 {i : Fin 624} (hi : 227 ≤ i.val) : (i - 227).val = i.val - 227 := Fin.sub_val_of_le hi

/-- R65's table, rows 0 to 226: all three operands are old. -/
theorem regenMt_word_of_le (mt : Mt) {i : Fin 624} (hi : i.val ≤ 226) :
    (regenMt mt).word i = twist (mt.word i) (mt.word (i + 1)) (mt.word (i + 397)) := by
  have h1 : ¬ i + 1 < i := by rw [Fin.lt_def, val_add_one]; omega
  have h397 : ¬ i + 397 < i := by rw [Fin.lt_def, val_add_397]; omega
  rw [regenMt_word, regenOperand, regenOperand, if_neg h1, if_neg h397]

/-- R65's table, rows 227 to 622: the third operand is new. -/
theorem regenMt_word_of_mid (mt : Mt) {i : Fin 624} (hlo : 227 ≤ i.val) (hhi : i.val ≤ 622) :
    (regenMt mt).word i = twist (mt.word i) (mt.word (i + 1)) ((regenMt mt).word (i - 227)) := by
  have h1 : ¬ i + 1 < i := by rw [Fin.lt_def, val_add_one]; omega
  have hback : i + 397 = i - 227 := Fin.ext (by rw [val_add_397, val_sub_227 hlo]; omega)
  have h227 : i - 227 < i := by rw [Fin.lt_def, val_sub_227 hlo]; omega
  rw [regenMt_word, regenOperand, regenOperand, if_neg h1, hback, if_pos h227]

/-- R65's table, row 623: the second and the third operand are new. -/
theorem regenMt_word_last (mt : Mt) :
    (regenMt mt).word 623 = twist (mt.word 623) ((regenMt mt).word 0) ((regenMt mt).word 396) := by
  rw [regenMt_word, regenOperand, regenOperand, show (623 + 1 : Fin 624) = 0 from rfl,
    show (623 + 397 : Fin 624) = 396 from rfl, if_pos (by decide), if_pos (by decide)]

end Sys2Proof.Machine
end

section
namespace Sys2Proof.Machine

open Sys2Proof.Safety

/-! Degenerate vectors (R22): no seeding leaves one, and the regeneration leads to none but from one. -/

theorem not_usedPartNonzero_iff (mt : Mt) :
    ¬ UsedPartNonzero mt ↔ (mt.word 0).getLsbD 31 = false ∧ ∀ i : Fin 624, i ≠ 0 → mt.word i = 0#32 := by
  simp only [not_or, Bool.not_eq_true, not_exists, not_and, not_not]

/-- A vector whose word 0 is `FORCED_MT0` is not degenerate (R61). -/
theorem usedPartNonzero_of_forced {mt : Mt} (h : mt.word 0 = Config.forcedMt0) : UsedPartNonzero mt :=
  .inl (by rw [h]; rfl)

/-- R22: a zero word of a scalar seeding is followed by its successor's number. -/
theorem scalarInit_word_of_pred_zero (seed : U32) (mt : Mt) {i : Fin 624} (hi : i ≠ 0)
    (h : (scalarInit seed mt).word (i - 1) = 0#32) : (scalarInit seed mt).word i = BitVec.ofNat 32 i.val := by
  rw [scalarInit_word_of_ne_zero seed mt hi, h, scalarNext_zero]

/-- A word number other than 0 is not 0 as a word either. -/
theorem ofNat_val_ne_zero {i : Fin 624} (hi : i ≠ 0) : BitVec.ofNat 32 i.val ≠ 0#32 := by
  have hpos : i.val ≠ 0 := Fin.val_ne_zero_iff.mpr hi
  simp only [ne_eq, BitVec.toNat_eq, BitVec.toNat_ofNat]
  omega

/-- R22: of the words 1 and 2 of a scalar seeding one is not zero, for a zero word 1 is followed by 2. -/
theorem scalarInit_usedPartNonzero (seed : U32) (mt : Mt) : UsedPartNonzero (scalarInit seed mt) := by
  have h2 : (2 : Fin 624) ≠ 0 := by decide
  by_cases h : (scalarInit seed mt).word 1 = 0#32
  · exact .inr ⟨2, h2, scalarInit_word_of_pred_zero seed mt h2 h ▸ ofNat_val_ne_zero h2⟩
  · exact .inr ⟨1, by decide, h⟩

/-- R65's table, row 623, makes a degenerate new vector zero in all its words: the row's twist gives zero, so the low bits of the
new word 0 are zero too. -/
theorem regenMt_word_eq_zero {mt : Mt} (h : ¬ UsedPartNonzero (regenMt mt)) (i : Fin 624) :
    (regenMt mt).word i = 0#32 := by
  obtain ⟨htop, hrest⟩ := (not_usedPartNonzero_iff _).mp h
  by_cases hi : i = 0
  · have hrow := regenMt_word_last mt
    rw [hrest 623 (by decide), hrest 396 (by decide)] at hrow
    have hlow := twistInputZero_of_twist_eq_zero hrow.symm
    exact hi ▸ eq_zero_of_twistInputZero hlow ⟨htop, fun _ _ => BitVec.getLsbD_zero⟩
  · exact hrest i hi

/-- A word is zero where its own row of the table and the row before took zero. -/
theorem word_eq_zero_of_rows {mt : Mt} {i : Fin 624} {w : U32}
    (hprev : TwistInputZero (mt.word (i - 1)) (mt.word (i - 1 + 1))) (hown : TwistInputZero (mt.word i) w) :
    mt.word i = 0#32 := by
  rw [sub_add_cancel] at hprev
  exact eq_zero_of_twistInputZero hprev hown

section
variable {mt : Mt} (hnew : ∀ i, (regenMt mt).word i = 0#32)
include hnew

/-- Where all new words are zero, the rows 227 to 622 of R65's table took zero of the old words. -/
theorem twistInputZero_of_mid {i : Fin 624} (hlo : 227 ≤ i.val) (hhi : i.val ≤ 622) :
    TwistInputZero (mt.word i) (mt.word (i + 1)) := by
  have hrow := regenMt_word_of_mid mt hlo hhi
  rw [hnew, hnew] at hrow
  exact twistInputZero_of_twist_eq_zero hrow.symm

/-- Row 623 took zero of the old word 623. -/
theorem twistInputZero_of_last : TwistInputZero (mt.word 623) 0#32 := by
  have hrow := regenMt_word_last mt
  rw [hnew, hnew, hnew] at hrow
  exact twistInputZero_of_twist_eq_zero hrow.symm

/-- So the old words 228 to 623 are zero: each lies between two of these rows. -/
theorem word_eq_zero_of_upper {i : Fin 624} (hi : 228 ≤ i.val) : mt.word i = 0#32 := by
  have hpred : (i - 1).val = i.val - 1 := Fin.val_sub_one_of_ne_zero (Fin.val_ne_zero_iff.mp (by omega))
  have hprev := twistInputZero_of_mid hnew (i := i - 1) (by omega) (by omega)
  by_cases hlast : i = 623
  · exact word_eq_zero_of_rows hprev (hlast ▸ twistInputZero_of_last hnew)
  · have hne : i.val ≠ 623 := fun e => hlast (Fin.ext e)
    exact word_eq_zero_of_rows hprev (twistInputZero_of_mid hnew (by omega) (by omega))

/-- And so the rows 0 to 226, whose third operands are among these words, took zero too. -/
theorem twistInputZero_of_le {i : Fin 624} (hi : i.val ≤ 622) : TwistInputZero (mt.word i) (mt.word (i + 1)) := by
  by_cases hlo : i.val ≤ 226
  · have hrow := regenMt_word_of_le mt hlo
    rw [hnew, word_eq_zero_of_upper hnew (i := i + 397) (by rw [val_add_397]; omega)] at hrow
    exact twistInputZero_of_twist_eq_zero hrow.symm
  · exact twistInputZero_of_mid hnew (by omega) hi

/-- The old vector is degenerate: each of its words 1 to 623 lies between two rows, and bit 31 of word 0 went into row 0. -/
theorem not_usedPartNonzero_of_regenMt_zero : ¬ UsedPartNonzero mt := by
  refine (not_usedPartNonzero_iff mt).mpr ⟨(twistInputZero_of_le hnew (i := 0) (by decide)).1, fun i hi => ?_⟩
  by_cases hup : 228 ≤ i.val
  · exact word_eq_zero_of_upper hnew hup
  · have hpred : (i - 1).val = i.val - 1 := Fin.val_sub_one_of_ne_zero hi
    exact word_eq_zero_of_rows (twistInputZero_of_le hnew (by omega)) (twistInputZero_of_le hnew (by omega))

end

/-- R22: a regeneration does not reach a degenerate vector from one that is not. -/
theorem regenMt_usedPartNonzero {mt : Mt} (h : UsedPartNonzero mt) : UsedPartNonzero (regenMt mt) := by
  by_contra hdeg
  exact not_usedPartNonzero_of_regenMt_zero (regenMt_word_eq_zero hdeg) h

/-- R65: the all-zero vector regenerates to itself; each iteration writes the twist of zero words, which is zero. -/
theorem regenMt_zero {mt : Mt} (h : ∀ i, mt.word i = 0#32) : ∀ i, (regenMt mt).word i = 0#32 := by
  unfold regenMt
  refine fold_induction (fun _ (m : Mt) => ∀ i, m.word i = 0#32) 624 _ _ h fun k hk m ih i => ?_
  rw [regenCell, Mt.word_setWord, ih, ih, ih, ih, show twist 0#32 0#32 0#32 = 0#32 from rfl, ite_self]

end Sys2Proof.Machine
end

section
namespace Sys2Proof.Machine

open Sys2Proof.Safety

/-! Invariants of the block: what a step, whatever the host sends, can do to a property of the block's own state. -/

/-- `P` speaks of the block's own state alone (`mt`, `index`, `SEEDED`: R9) and holds after a seeding, after a draw from a
seeded state that has it, and after a reset. -/
structure BlockInvariant (P : State → Prop) : Prop where
  congr : ∀ {s t : State}, t.mt = s.mt → t.index = s.index → t.seeded = s.seeded → P s → P t
  scalar : ∀ (seed : U32) (s : State), P (markSeeded { s with mt := scalarInit seed s.mt })
  array : ∀ (len : Nat) (s : State), P (markSeeded (arraySeed len s))
  draw : ∀ {s t : State} {r : U32}, s.seeded = true → P s → draw s = some (r, t) → P t
  reset : ∀ s : State, P (applyReset s)

namespace BlockInvariant

variable {P : State → Prop} (hP : BlockInvariant P)
include hP

theorem of_respond {s : State} (h : P s) (st : Status) (d : Data) : P (respond st d s) :=
  hP.congr (respond_mt st d s) (respond_index st d s) (respond_seeded st d s) h

theorem of_raise {s : State} (h : P s) (e : Fault) : P (raise e s) := hP.of_respond h _ _

/-- Every command keeps such a property. -/
theorem of_exec {i : Instr} {s t : State} (h : P s) (hexec : exec i s = .next t) : P t := by
  cases i with
  | seedScalar seed =>
    rw [execSeedScalar_cases hexec]
    exact hP.of_respond (hP.scalar seed s) _ _
  | seedArray len =>
    obtain ⟨-, rfl⟩ | ⟨-, rfl⟩ := execSeedArray_cases hexec
    · exact hP.of_raise h _
    · exact hP.of_respond (hP.array _ s) _ _
  | nextU32 =>
    obtain ⟨-, rfl⟩ | ⟨hs, r, u, hd, rfl⟩ := execNextU32_cases hexec
    · exact hP.of_raise h _
    · exact hP.of_respond (hP.draw hs h hd) _ _
  | nextF64 =>
    obtain ⟨-, rfl⟩ | ⟨hs, r1, u, r2, v, hd1, hd2, rfl⟩ := execNextF64_cases hexec
    · exact hP.of_raise h _
    · have hu : u.seeded = true := (draw_fields hd1).1.trans hs
      exact hP.of_respond (hP.draw hu (hP.draw hs h hd1) hd2) _ _

/-- Every step keeps such a property. -/
theorem of_step {s t : State} (h : P s) (hstep : step s = .next t) : P t := by
  obtain ⟨-, rfl⟩ | ⟨cw, rest, -, hcmd⟩ | ⟨ws, rest, -, rfl⟩ | ⟨j, w, rest, -, rfl⟩ | ⟨rest, -, rfl⟩ := step_cases hstep
  · exact h
  · have hrest : P { s with inputs := rest } := hP.congr (s := s) rfl rfl rfl h
    obtain ⟨r, -, rfl⟩ | ⟨i, -, hexec⟩ := acceptCommand_cases hcmd
    · exact hP.of_raise hrest _
    · exact hP.of_exec hrest hexec
  · exact hP.congr (s := s) rfl rfl rfl h
  · exact hP.congr (s := s) rfl rfl rfl h
  · exact hP.reset _

end BlockInvariant

/-- A draw leaves `index` at 1 to 624: 1 after a regeneration, one more than before otherwise (R71). -/
theorem draw_index_le {s t : State} {r : U32} (h : draw s = some (r, t)) : t.index.toNat ≤ 624 := by
  obtain ⟨-, -, rfl⟩ | ⟨hi, -, rfl⟩ := draw_cases h
  · exact (by decide : (1#10).toNat ≤ 624)
  · simp only [BitVec.toNat_add, BitVec.toNat_ofNat]
    omega

/-- R11, R13 (e): a seeding leaves `index` 624, a draw leaves it at most 624. -/
theorem indexLegal_blockInvariant : BlockInvariant IndexLegal where
  congr _ hindex hseeded h := by
    unfold IndexLegal
    rwa [hindex, hseeded]
  scalar _ _ _ := by rw [markSeeded_index]; decide
  array _ _ _ := by rw [markSeeded_index]; decide
  draw _ _ hd _ := draw_index_le hd
  reset _ h := by cases h

/-- R22: no seeding gives a degenerate vector, and a draw changes the vector by a regeneration if at all. -/
theorem nondegenerate_blockInvariant : BlockInvariant Nondegenerate where
  congr hmt _ hseeded h := by
    unfold Nondegenerate
    rwa [hmt, hseeded]
  scalar seed s _ := scalarInit_usedPartNonzero seed s.mt
  array len s _ := usedPartNonzero_of_forced (Mt.word_setWord_self _ _ _)
  draw hs h hd _ := by
    obtain ⟨-, -, rfl⟩ | ⟨-, -, rfl⟩ := draw_cases hd
    · exact regenMt_usedPartNonzero (h hs)
    · exact h hs
  reset _ h := by cases h

/-- Settles O47: legality of the index is an invariant of the block. -/
theorem stepKeepsTheIndexLegal : Obligations.StepKeepsTheIndexLegal :=
  fun _ _ h hstep => indexLegal_blockInvariant.of_step h hstep

/-- Settles O48: that the used part of the vector is not all zero is an invariant of the block; its regenerations are
`regenMt_usedPartNonzero`, by R65's table read backwards. -/
theorem stepKeepsTheVectorNondegenerate : Obligations.StepKeepsTheVectorNondegenerate :=
  fun _ _ h hstep => nondegenerate_blockInvariant.of_step h hstep

end Sys2Proof.Machine
end

section
namespace Sys2Proof.Machine

open Sys2Proof.Safety

/-! `SEEDED` (R12), the frame of the commands, and the small statements about the reset state and the extractions. -/

/-- R82: both extractions where `SEEDED` is 0. -/
theorem exec_extraction_unseeded {i : Instr} {s : State} (hi : i = .nextU32 ∨ i = .nextF64) (hs : s.seeded = false) :
    exec i s = .next { s with trace := s.trace ++ [⟨.errUnseeded, 0#64⟩] } := by
  obtain rfl | rfl := hi
  · exact execNextU32_unseeded hs
  · exact execNextF64_unseeded hs

/-- The commands that set `SEEDED` where they succeed, and with which operands they do (R12, R57, R60). -/
def Seeds (i : Instr) : Prop := (∃ seed, i = .seedScalar seed) ∨ ∃ len, len ≠ 0#32 ∧ i = .seedArray len

/-- R12: a successful seeding sets `SEEDED`, any other command leaves it as it is. -/
theorem exec_seeded_iff {i : Instr} {s t : State} (h : exec i s = .next t) :
    t.seeded = true ↔ s.seeded = true ∨ Seeds i := by
  cases i with
  | seedScalar seed =>
    rw [execSeedScalar_cases h]
    simp [Seeds]
  | seedArray len =>
    obtain ⟨hlen, rfl⟩ | ⟨hlen, rfl⟩ := execSeedArray_cases h <;> simp [Seeds, hlen]
  | nextU32 =>
    obtain ⟨-, rfl⟩ | ⟨-, r, u, hd, rfl⟩ := execNextU32_cases h
    · simp [Seeds]
    · simp [Seeds, (draw_fields hd).1]
  | nextF64 =>
    obtain ⟨-, rfl⟩ | ⟨-, r1, u, r2, v, hd1, hd2, rfl⟩ := execNextF64_cases h
    · simp [Seeds]
    · simp [Seeds, (draw_fields hd2).1, (draw_fields hd1).1]

/-- R12, R44: of the command words those of a successful seeding set `SEEDED`, any other leaves it as it is. -/
theorem acceptCommand_seeded_iff {cw : CmdWord} {s t : State} (h : acceptCommand cw s = .next t) :
    t.seeded = true ↔ s.seeded = true ∨ 
      ((∃ seed, decode cw = .ok (.seedScalar seed)) ∨ ∃ len, len ≠ 0#32 ∧ decode cw = .ok (.seedArray len)) := by
  obtain ⟨r, hr, rfl⟩ | ⟨i, hi, hexec⟩ := acceptCommand_cases h
  · simp [hr]
  · rw [exec_seeded_iff hexec]
    simp [hi, Seeds]

/-- Settles O45: `acceptCommand_seeded_iff` for a command word; a reset clears `SEEDED`, and the other steps leave it. -/
theorem seededIsWrittenBySeedingAndResetOnly : Obligations.SeededIsWrittenBySeedingAndResetOnly := by
  unfold Obligations.SeededIsWrittenBySeedingAndResetOnly
  refine ⟨rfl, fun i s hi hs => exec_extraction_unseeded hi hs, fun s t hstep => ?_⟩
  obtain ⟨hin, rfl⟩ | ⟨cw, rest, hin, hcmd⟩ | ⟨ws, rest, hin, rfl⟩ | ⟨j, w, rest, hin, rfl⟩ | ⟨rest, hin, rfl⟩ :=
    step_cases hstep
  · simp [hin]
  · rw [acceptCommand_seeded_iff hcmd]
    simp [hin]
  · simp [hin]
  · simp [hin]
  · simp [hin]

/-- A command touches none of the fields the host owns, and gives one response after the earlier ones (R15, R24, R26). -/
theorem exec_frame {i : Instr} {s t : State} (h : exec i s = .next t) :
    t.key = s.key ∧ t.inputs = s.inputs ∧ t.resets = s.resets ∧ ∃ r : Response, t.trace = s.trace ++ [r] := by
  cases i with
  | seedScalar seed =>
    rw [execSeedScalar_cases h]
    exact ⟨rfl, rfl, rfl, _, rfl⟩
  | seedArray len =>
    obtain ⟨-, rfl⟩ | ⟨-, rfl⟩ := execSeedArray_cases h
    · exact ⟨rfl, rfl, rfl, _, rfl⟩
    · exact ⟨rfl, rfl, rfl, _, rfl⟩
  | nextU32 =>
    obtain ⟨-, rfl⟩ | ⟨-, r, u, hd, rfl⟩ := execNextU32_cases h
    · exact ⟨rfl, rfl, rfl, _, rfl⟩
    · obtain ⟨-, hkey, -, hinputs, htrace, hresets⟩ := draw_fields hd
      exact ⟨hkey, hinputs, hresets, _, by rw [respond_trace, htrace]⟩
  | nextF64 =>
    obtain ⟨-, rfl⟩ | ⟨-, r1, u, r2, v, hd1, hd2, rfl⟩ := execNextF64_cases h
    · exact ⟨rfl, rfl, rfl, _, rfl⟩
    · obtain ⟨-, hkey1, -, hinputs1, htrace1, hresets1⟩ := draw_fields hd1
      obtain ⟨-, hkey2, -, hinputs2, htrace2, hresets2⟩ := draw_fields hd2
      exact ⟨hkey2.trans hkey1, hinputs2.trans hinputs1, hresets2.trans hresets1, _,
        by rw [respond_trace, htrace2, htrace1]⟩

/-- R26, R27: a command other than `SEED_ARRAY` makes no key read. -/
theorem exec_keyReads_of_ne_seedArray {i : Instr} {s t : State} (hi : ∀ len, i ≠ .seedArray len)
    (h : exec i s = .next t) : t.keyReads = s.keyReads := by
  cases i with
  | seedScalar seed => rw [execSeedScalar_cases h]; rfl
  | seedArray len => exact absurd rfl (hi len)
  | nextU32 =>
    obtain ⟨-, rfl⟩ | ⟨-, r, u, hd, rfl⟩ := execNextU32_cases h
    · rfl
    · simp [draw_fields hd]
  | nextF64 =>
    obtain ⟨-, rfl⟩ | ⟨-, r1, u, r2, v, hd1, hd2, rfl⟩ := execNextF64_cases h
    · rfl
    · simp [draw_fields hd2, draw_fields hd1]

/-- R12, R15: an extraction leaves `SEEDED` alone, for it is no seeding. -/
theorem exec_extraction_seeded {i : Instr} {s t : State} (hi : i = .nextU32 ∨ i = .nextF64) (h : exec i s = .next t) :
    t.seeded = s.seeded := by
  have hno : ¬ Seeds i := by rcases hi with rfl | rfl <;> simp [Seeds]
  rw [Bool.eq_iff_iff, exec_seeded_iff h, or_iff_left hno]

/-- Settles O13: `exec_frame`, with the key reads and `SEEDED` command by command. -/
theorem frameOfEveryCommand : Obligations.FrameOfEveryCommand := by
  unfold Obligations.FrameOfEveryCommand
  intro i s t h
  obtain ⟨hkey, hinputs, hresets, htrace⟩ := exec_frame h
  exact ⟨fun j => by rw [hkey], hkey, hinputs, hresets, fun hi => exec_keyReads_of_ne_seedArray hi h,
    fun hi => exec_extraction_seeded hi h, htrace⟩

/-- Settles O24: a zero word of a scalar seeding is followed by its successor's number, so words 1 and 2 are not both zero; an
array seeding forces word 0. -/
theorem seedingIsNeverDegenerate : Obligations.SeedingIsNeverDegenerate := by
  unfold Obligations.SeedingIsNeverDegenerate
  constructor
  · intro seed s t h
    have hmt : t.mt = scalarInit seed s.mt := by rw [execSeedScalar_cases h, respond_mt, markSeeded_mt]
    rw [hmt]
    refine ⟨scalarInit_usedPartNonzero seed s.mt, fun i hi hpred => ?_⟩
    have hword := scalarInit_word_of_pred_zero seed s.mt hi hpred
    exact ⟨hword, hword ▸ ofNat_val_ne_zero hi⟩
  · intro len s t hlen h
    have hword : t.mt.word 0 = Config.forcedMt0 := by
      obtain ⟨hzero, -⟩ | ⟨-, rfl⟩ := execSeedArray_cases h
      · exact absurd hzero hlen
      · rw [respond_mt, markSeeded_mt, arraySeed_mt, Mt.word_setWord_self]
    exact ⟨usedPartNonzero_of_forced hword, hword⟩

/-- Settles O29: `regenMt_zero`, and the tempering of 0 is one evaluation. -/
theorem zeroVectorStaysZero : Obligations.ZeroVectorStaysZero :=
  ⟨fun _ h => regenMt_zero h, by decide⟩

/-- Settles O14: the reset state is unseeded, so `exec_extraction_unseeded` applies, and its record is empty. -/
theorem afterResetExtractionIsRefused : Obligations.AfterResetExtractionIsRefused :=
  ⟨rfl, rfl, exec_extraction_unseeded (.inl rfl) rfl, exec_extraction_unseeded (.inr rfl) rfl⟩

/-- `NEXT_U32` where `SEEDED` = 1 and there is no draw (U9). -/
theorem execNextU32_of_no_draw {s : State} (h : s.seeded = true) (hd : draw s = none) :
    execNextU32 s = .refused .illFormedIndex := by
  simp [execNextU32, isUnseeded, h, hd]

/-- `NEXT_F64` where `SEEDED` = 1 and there is no first draw (U9). -/
theorem execNextF64_of_no_draw {s : State} (h : s.seeded = true) (hd : draw s = none) :
    execNextF64 s = .refused .illFormedIndex := by
  simp [execNextF64, isUnseeded, h, hd]

/-- Settles O36: above 624 there is no draw (`draw_illFormed`). -/
theorem illFormedIndexIsRefused : Obligations.IllFormedIndexIsRefused :=
  fun _ hs hi => ⟨execNextU32_of_no_draw hs (draw_illFormed hi), execNextF64_of_no_draw hs (draw_illFormed hi)⟩

/-- Settles O46: the reset state is unseeded, and its KEY space lists no word. -/
theorem resetStateIsLegal : Obligations.ResetStateIsLegal :=
  ⟨fun h => (by cases h), fun h => (by cases h), rfl⟩

end Sys2Proof.Machine
end

section
namespace Sys2Proof.Machine

/-! Every step from a legal index ends in a next state (R84, R102). -/

open Sys2Proof.Safety

/-- From a legal index every command ends in a next state. -/
theorem exec_completes {s : State} (h : IndexLegal s) (i : Instr) : ∃ t, exec i s = .next t := by
  cases i with
  | seedScalar seed => exact ⟨_, rfl⟩
  | seedArray len =>
    by_cases hlen : len = 0#32
    · exact ⟨_, hlen ▸ execSeedArray_empty s⟩
    · exact ⟨_, execSeedArray_nonempty hlen s⟩
  | nextU32 =>
    cases hs : s.seeded with
    | false => exact ⟨_, execNextU32_unseeded hs⟩
    | true =>
      obtain ⟨r, t, hd, -⟩ := draw_of_legal (h hs)
      exact ⟨_, execNextU32_of_draw hs hd⟩
  | nextF64 =>
    cases hs : s.seeded with
    | false => exact ⟨_, execNextF64_unseeded hs⟩
    | true =>
      obtain ⟨r1, t, hd1, ht⟩ := draw_of_legal (h hs)
      obtain ⟨r2, u, hd2, -⟩ := draw_of_legal ht
      exact ⟨_, execNextF64_of_draws hs hd1 hd2⟩

/-- From a legal index every command word ends in a next state. -/
theorem acceptCommand_completes {s : State} (h : IndexLegal s) (cw : CmdWord) : ∃ t, acceptCommand cw s = .next t := by
  unfold acceptCommand
  split
  · exact exec_completes h _
  · exact ⟨_, rfl⟩

/-- From a legal index every input is accepted. -/
theorem acceptInput_completes {s : State} (h : IndexLegal s) (x : Input) : ∃ t, acceptInput x s = .next t := by
  cases x with
  | command cw => exact acceptCommand_completes h cw
  | key words => exact ⟨_, rfl⟩
  | keyWord j w => exact ⟨_, rfl⟩
  | reset => exact ⟨_, rfl⟩

/-- R96: with no input the block holds its state. -/
theorem step_of_no_input {s : State} (h : s.inputs = []) : step s = .next s := by
  simp only [step, advance, h]

/-- R5: a step takes the next input off the list and accepts it. -/
theorem step_of_input {s : State} {x : Input} {rest : List Input} (h : s.inputs = x :: rest) :
    step s = acceptInput x { s with inputs := rest } := by
  simp only [step, advance, h]

/-- From a legal index every step ends in a next state. -/
theorem step_completes {s : State} (h : IndexLegal s) : ∃ t, step s = .next t := by
  cases hin : s.inputs with
  | nil => exact ⟨s, step_of_no_input hin⟩
  | cons x rest =>
    rw [step_of_input hin]
    exact acceptInput_completes (s := { s with inputs := rest }) h x

/-- A run whose first step ends in a next state goes on from there. -/
theorem run_succ_of_step {M : Host.Core} {s t : M.State} (h : M.step s = .next t) (n : Nat) :
    M.run (n + 1) s = M.run n t := by
  rw [Host.Core.run, h]

end Sys2Proof.Machine

namespace Sys2Proof.Safety.SameToHost

open Sys2Proof.Machine

/-! States the same to the host (R21, R103): what keeps them so. -/

/-- Where `SEEDED` is 1, states the same to the host are equal. -/
theorem eq_of_seeded {s s' : State} (h : SameToHost s s') (hs : s.seeded = true) : s = s' := by
  cases s
  cases s'
  rw [State.mk.injEq]
  exact ⟨h.mt hs, h.index hs, h.seeded, h.key, h.keyReads, h.inputs, h.trace, h.resets⟩

theorem refl (s : State) : SameToHost s s :=
  ⟨rfl, rfl, rfl, rfl, rfl, rfl, fun _ => rfl, fun _ => rfl⟩

/-- An unseeded state is the same to the host as any that differs from it in `mt` and `index` alone. -/
theorem of_storage (s : State) (hs : s.seeded = false) (mt : Mt) (index : BitVec 10) :
    SameToHost s { s with mt := mt, index := index } :=
  ⟨rfl, rfl, rfl, rfl, rfl, rfl, fun h => by simp [hs] at h, fun h => by simp [hs] at h⟩

section
variable {s s' : State} (h : SameToHost s s')
include h

theorem indexLegal (hl : IndexLegal s) : IndexLegal s' := by
  intro hs'
  have hs := h.seeded.trans hs'
  exact h.index hs ▸ hl hs

theorem of_inputs (xs : List Input) : SameToHost { s with inputs := xs } { s' with inputs := xs } where
  __ := h
  inputs := rfl

theorem of_key (key : Memory) : SameToHost { s with key := key } { s' with key := key } where
  __ := h
  key := rfl

theorem of_respond (st : Status) (d : Data) : SameToHost (respond st d s) (respond st d s') where
  __ := h
  trace := by rw [respond_trace, respond_trace, h.trace]

theorem of_raise (e : Fault) : SameToHost (raise e s) (raise e s') := h.of_respond _ _

theorem of_applyReset : SameToHost (applyReset s) (applyReset s') where
  __ := h
  seeded := rfl
  resets := by rw [applyReset_resets, applyReset_resets, h.resets]
  mt hs := by cases hs
  index hs := by cases hs

/-- The end of a seeding takes two states the same to the host to one and the same state. -/
theorem markSeeded_eq (mt : Mt) (reads : List Nat) :
    markSeeded { s with mt := mt, keyReads := reads } = markSeeded { s' with mt := mt, keyReads := reads } := by
  simp only [markSeeded, h.key, h.inputs, h.trace, h.resets]

/-- R57: a scalar seeding writes the whole vector whatever it held. -/
theorem execSeedScalar_eq (seed : U32) : execSeedScalar seed s = execSeedScalar seed s' := by
  rw [execSeedScalar, h.markSeeded_eq, scalarInit_eq_scalarInit seed s.mt s'.mt, h.keyReads, execSeedScalar]

/-- R60: an array seeding starts from a scalar seeding and reads the same key words. -/
theorem markSeeded_arraySeed_eq (len : Nat) : markSeeded (arraySeed len s) = markSeeded (arraySeed len s') := by
  rw [arraySeed, h.markSeeded_eq, scalarInit_eq_scalarInit _ s.mt s'.mt, h.key, h.keyReads, arraySeed]

end

/-! A command, an input and a step on two states the same to the host: the one follows the other. -/

/-- Where `SEEDED` is 1 the states are equal; where it is 0 a seeding makes them equal, and both refuse an extraction. -/
theorem exec_follows {i : Instr} {s s' t : State} (h : SameToHost s s') (hexec : exec i s = .next t) :
    ∃ t', exec i s' = .next t' ∧ SameToHost t t' := by
  cases hs : s.seeded with
  | true => exact ⟨t, h.eq_of_seeded hs ▸ hexec, refl t⟩
  | false =>
    have hs' : s'.seeded = false := h.seeded ▸ hs
    cases i with
    | seedScalar seed => exact ⟨t, (h.execSeedScalar_eq seed).symm.trans hexec, refl t⟩
    | seedArray len =>
      obtain ⟨rfl, rfl⟩ | ⟨hlen, rfl⟩ := execSeedArray_cases hexec
      · exact ⟨_, execSeedArray_empty s', h.of_raise _⟩
      · exact ⟨_, execSeedArray_nonempty hlen s', by rw [h.markSeeded_arraySeed_eq]; exact refl _⟩
    | nextU32 =>
      obtain ⟨-, rfl⟩ | ⟨hseeded, -⟩ := execNextU32_cases hexec
      · exact ⟨_, execNextU32_unseeded hs', h.of_raise _⟩
      · simp [hs] at hseeded
    | nextF64 =>
      obtain ⟨-, rfl⟩ | ⟨hseeded, -⟩ := execNextF64_cases hexec
      · exact ⟨_, execNextF64_unseeded hs', h.of_raise _⟩
      · simp [hs] at hseeded

theorem acceptCommand_follows {cw : CmdWord} {s s' t : State} (h : SameToHost s s') (hcmd : acceptCommand cw s = .next t) :
    ∃ t', acceptCommand cw s' = .next t' ∧ SameToHost t t' := by
  obtain ⟨r, hr, rfl⟩ | ⟨i, hi, hexec⟩ := acceptCommand_cases hcmd
  · exact ⟨_, by simp only [acceptCommand, hr], h.of_raise _⟩
  · rw [acceptCommand_of_decode_ok hi]
    exact h.exec_follows hexec

theorem acceptInput_follows {x : Input} {s s' t : State} (h : SameToHost s s') (hin : acceptInput x s = .next t) :
    ∃ t', acceptInput x s' = .next t' ∧ SameToHost t t' := by
  cases x with
  | command cw => exact h.acceptCommand_follows hin
  | key words =>
    obtain rfl := Host.Outcome.next.inj hin
    exact ⟨_, rfl, h.of_key _⟩
  | keyWord j w =>
    obtain rfl := Host.Outcome.next.inj hin
    exact ⟨_, rfl, h.key ▸ h.of_key _⟩
  | reset =>
    obtain rfl := Host.Outcome.next.inj hin
    exact ⟨_, rfl, h.of_applyReset⟩

theorem step_follows {s s' t : State} (h : SameToHost s s') (hstep : step s = .next t) :
    ∃ t', step s' = .next t' ∧ SameToHost t t' := by
  cases hin : s.inputs with
  | nil =>
    obtain rfl := Host.Outcome.next.inj ((step_of_no_input hin).symm.trans hstep)
    exact ⟨s', step_of_no_input (h.inputs ▸ hin), h⟩
  | cons x rest =>
    rw [step_of_input (h.inputs ▸ hin)]
    exact (h.of_inputs rest).acceptInput_follows ((step_of_input hin).symm.trans hstep)

end Sys2Proof.Safety.SameToHost
end

section
namespace Sys2Proof.Machine

open Sys2Proof.Safety

/-- Settles O56: the one state has a step (`step_completes`), which the other can follow (`SameToHost.step_follows`), and O47 keeps the
index of both legal. -/
theorem stepKeepsStatesTheSameToHost : Obligations.StepKeepsStatesTheSameToHost := by
  unfold Obligations.StepKeepsStatesTheSameToHost
  intro s s' h hl
  obtain ⟨t, hstep⟩ := step_completes hl
  obtain ⟨t', hstep', ht⟩ := h.step_follows hstep
  have hlt := stepKeepsTheIndexLegal s t hl hstep
  exact ⟨t, t', hstep, hstep', ht, hlt, ht.indexLegal hlt⟩

/-- Two runs from states the same to the host, of a legal index, go on side by side (R103). -/
theorem run_sameToHost (n : Nat) {s s' : State} (h : SameToHost s s') (hl : IndexLegal s) :
    ∃ t t' : State, core.run n s = .next t ∧ core.run n s' = .next t' ∧ SameToHost t t' := by
  induction n generalizing s s' with
  | zero => exact ⟨s, s', rfl, rfl, h⟩
  | succ n ih =>
    obtain ⟨t, t', hstep, hstep', ht, hlt, -⟩ := stepKeepsStatesTheSameToHost s s' h hl
    obtain ⟨u, u', hrun, hrun', hu⟩ := ih ht hlt
    exact ⟨u, u', (run_succ_of_step (M := core) hstep n).trans hrun, (run_succ_of_step (M := core) hstep' n).trans hrun', hu⟩

/-- Settles O51: an unseeded state has a legal index whatever it holds, so the runs go on side by side. -/
theorem responsesDoNotDependOnUnspecifiedStorage : Obligations.ResponsesDoNotDependOnUnspecifiedStorage := by
  unfold Obligations.ResponsesDoNotDependOnUnspecifiedStorage
  rintro n s s' hs ⟨mt, index, rfl⟩
  exact run_sameToHost n (SameToHost.of_storage s hs mt index) fun hseeded => absurd hseeded (by simp [hs])

end Sys2Proof.Machine
end

section
namespace Sys2Proof.Machine

/-! The KEY space: what each step of the block and of its host does to it (R25, R26, R97), and the order in which the first
mixing pass reads it (R58). -/

open Sys2Proof.Safety

/-- R97: a step whose next input is a change of one key word makes that change. -/
theorem step_keyWord {s : State} {j : Nat} {w : U32} {rest : List Input} (h : s.inputs = .keyWord j w :: rest) :
    step s = .next { s with key := s.key.write j w, inputs := rest } := by
  simp [step, advance, h, acceptInput]

/-- Settles O12: the new KEY space is the written one, which reads the word at its index (`Memory.read_write_self`) and the old
words at the others (`Memory.read_write_of_ne`). -/
theorem keyWordWriteChangesOneWord : Obligations.KeyWordWriteChangesOneWord :=
  fun s j w _ hinputs => ⟨s.key.write j w, step_keyWord hinputs, Memory.read_write_self s.key j w,
    fun _ hk => Memory.read_write_of_ne s.key w hk⟩

/-- R24, R26: the block does not write the KEY space, whatever command word it accepts. -/
theorem acceptCommand_key {cw : CmdWord} {s t : State} (h : acceptCommand cw s = .next t) : t.key = s.key := by
  obtain ⟨r, -, rfl⟩ | ⟨i, -, hexec⟩ := acceptCommand_cases h
  · exact raise_key _ _
  · exact (exec_frame hexec).1

/-- Settles O49: the block leaves the KEY space alone, and both changes a host can make keep the canonical form
(`Memory.wf_ofWords`, `Memory.wf_write`). -/
theorem stepKeepsTheKeySpaceCanonical : Obligations.StepKeepsTheKeySpaceCanonical := by
  unfold Obligations.StepKeepsTheKeySpaceCanonical
  intro s t h hstep
  obtain ⟨-, rfl⟩ | ⟨cw, rest, -, hcmd⟩ | ⟨ws, rest, -, rfl⟩ | ⟨j, w, rest, -, rfl⟩ | ⟨rest, -, rfl⟩ := step_cases hstep
  · exact h
  · rw [KeyCanonical, acceptCommand_key hcmd]
    exact h
  · exact Memory.wf_ofWords ws 0
  · exact Memory.wf_write s.key j w h
  · exact h

/-- R58, R59: the wrap rule of both mixing passes takes 623 to 1, and any other word number to the next one. -/
theorem Cursor.advance_i_val (c : Cursor) : c.advance.i.val = 1 + c.i.val % 623 := by
  unfold Cursor.advance
  split
  · show c.i.val + 1 = 1 + c.i.val % 623
    omega
  · show 1 = 1 + c.i.val % 623
    omega

/-- An iteration of `MIX1` moves the cursor on by the wrap rule. -/
theorem mix1Step_i_val (key : Memory) (len : Nat) (m : Mix1) :
    (mix1Step key len m).cur.i.val = 1 + m.cur.i.val % 623 :=
  Cursor.advance_i_val _

/-- An iteration of `MIX1` moves the key index on, cyclically in the key (R58). -/
theorem mix1Step_j {len : Nat} {m : Mix1} (h : m.j < len) (key : Memory) : (mix1Step key len m).j = (m.j + 1) % len := by
  show (if m.j + 1 ≥ len then 0 else m.j + 1) = (m.j + 1) % len
  split
  · have hlast : m.j + 1 = len := by omega
    rw [hlast, Nat.mod_self]
  · rw [Nat.mod_eq_of_lt (by omega)]

/-- An iteration of `MIX1` reads the key once, at its key index (R27, R58). -/
@[simp] theorem mix1Step_reads (key : Memory) (len : Nat) (m : Mix1) : (mix1Step key len m).reads = m.reads ++ [m.j] := rfl

/-- Where `MIX1(len)` stands after `k` iterations, `reads` being the key reads made before it (R58). -/
structure Mix1Progress (reads : List Nat) (len k : Nat) (m : Mix1) : Prop where
  i_val : m.cur.i.val = 1 + k % 623
  j : m.j = k % len
  reads : m.reads = reads ++ (List.range k).map (fun n => n % len)

/-- R58: every iteration of `MIX1` moves both positions on by one and adds one key read. -/
theorem Mix1Progress.step {reads : List Nat} {len k : Nat} {m : Mix1} (h : Mix1Progress reads len k m)
    (hlen : 1 ≤ len) (key : Memory) : Mix1Progress reads len (k + 1) (mix1Step key len m) where
  i_val := by
    rw [mix1Step_i_val, h.i_val]
    omega
  j := by
    have hlt : m.j < len := h.j ▸ Nat.mod_lt k hlen
    rw [mix1Step_j hlt, h.j, Nat.mod_add_mod]
  reads := by
    rw [mix1Step_reads, h.reads, h.j, List.range_succ, List.map_append, List.append_assoc, List.map_singleton]

/-- R58: `MIX1` begins at `i` = 1, `j` = 0, and so stands after `k` iterations where its number of iterations says. -/
theorem mix1Progress_iterate (key : Memory) (reads : List Nat) {len : Nat} (mt : Mt) (hlen : 1 ≤ len) (k : Nat) :
    Mix1Progress reads len k ((mix1Step key len)^[k] ⟨⟨mt, 1⟩, 0, reads⟩) :=
  iterate_induction (Mix1Progress reads len) (mix1Step key len) _
    ⟨rfl, (Nat.zero_mod len).symm, (List.append_nil reads).symm⟩ (fun _ _ ih => ih.step hlen key) k

/-- Settles O19: `mix1Progress_iterate` at the last iteration. -/
theorem firstMixingPassReadsTheKeyCyclically : Obligations.FirstMixingPassReadsTheKeyCyclically := by
  unfold Obligations.FirstMixingPassReadsTheKeyCyclically
  intro key reads len mt hlen
  have hend := mix1Progress_iterate key reads mt hlen (max 624 len)
  unfold mix1
  exact ⟨hend.reads, hend.i_val⟩

end Sys2Proof.Machine
end

section
namespace Sys2Proof

/-! The command words (R38, R42, R43): the word of `OP` and `ARG`, the decoder as the inverse of the encoder, and the rows of
the opcode map as the words of the commands. -/

/-- Settles O1: `decode_encode`, for every command. -/
theorem decodeOfEncodeGivesTheCommand : Obligations.DecodeOfEncodeGivesTheCommand :=
  decode_encode

/-- R38: a word is its `OP` above its `ARG`. -/
@[simp] theorem opField_append_argField (cw : CmdWord) : opField cw ++ argField cw = cw :=
  BitVec.extractLsb'_append_extractLsb'_eq_extractLsb' (by decide) |>.trans BitVec.extractLsb'_eq_self

/-- R43: a word decodes to a command only where it has the command's `OP` and `ARG`. -/
theorem fields_of_decode_ok {cw : CmdWord} {i : Instr} (h : decode cw = .ok i) :
    opField cw = opcodeOf i ∧ argField cw = argOf i := by
  simp only [decode] at h
  split_ifs at h with h1 h2 h3 harg h4 harg
  all_goals cases h
  · exact ⟨h1, rfl⟩
  · exact ⟨h2, rfl⟩
  · exact ⟨h3, harg⟩
  · exact ⟨h4, harg⟩

/-- R38, R43: the words that decode to a command are those of the encoder. -/
theorem decode_eq_ok_iff {cw : CmdWord} {i : Instr} : decode cw = .ok i ↔ encode i = cw := by
  constructor
  · intro h
    obtain ⟨hop, harg⟩ := fields_of_decode_ok h
    rw [encode, ← hop, ← harg, opField_append_argField]
  · rintro rfl
    exact decode_encode i

/-- Settles O2: `decode_eq_ok_iff`, left to right. -/
theorem encodeOfDecodeGivesTheWord : Obligations.EncodeOfDecodeGivesTheWord :=
  fun _ _ => decode_eq_ok_iff.mp

/-- R38: `OP` is the quotient of the word by 2^32. -/
theorem opField_toNat (cw : CmdWord) : (opField cw).toNat = cw.toNat / 2 ^ 32 := by
  have hlt := cw.isLt
  rw [opField, BitVec.extractLsb'_toNat, Nat.shiftRight_eq_div_pow]
  omega

/-- R38: `ARG` is the remainder of the word by 2^32. -/
theorem argField_eq_ofNat (cw : CmdWord) : argField cw = BitVec.ofNat 32 (cw.toNat % 2 ^ 32) := by
  apply BitVec.eq_of_toNat_eq
  simp [argField]

/-- A test of `OP` is a test of the quotient. -/
theorem opField_eq_iff (cw : CmdWord) {n : Nat} (hn : n < 2 ^ 8) :
    opField cw = BitVec.ofNat 8 n ↔ cw.toNat / 2 ^ 32 = n := by
  rw [← BitVec.toNat_inj, opField_toNat, BitVec.toNat_ofNat, Nat.mod_eq_of_lt hn]

/-- The test that `ARG` is 0 is a test of the remainder. -/
theorem argField_eq_zero_iff (cw : CmdWord) : argField cw = 0#32 ↔ cw.toNat % 2 ^ 32 = 0 := by
  rw [argField_eq_ofNat, ← BitVec.toNat_inj]
  simp

/-- R43: the commands by `OP` and `ARG`; where `OP` is 3 or 4 and `ARG` is not 0, no later test succeeds. -/
theorem decode_toOption (cw : CmdWord) : (decode cw).toOption =
    if opField cw = 0x01#8 then some (.seedScalar (argField cw))
    else if opField cw = 0x02#8 then some (.seedArray (argField cw))
    else if opField cw = 0x03#8 ∧ argField cw = 0#32 then some .nextU32
    else if opField cw = 0x04#8 ∧ argField cw = 0#32 then some .nextF64
    else none := by
  simp only [decode, apply_ite Except.toOption]
  by_cases hop3 : opField cw = 0x03#8
  · simp [hop3, Except.toOption]
  · simp [hop3, ite_and, Except.toOption]

/-- Settles O3: the tests of `decode_toOption` are tests of the quotient and the remainder (`opField_eq_iff`,
`argField_eq_zero_iff`). -/
theorem decodeIsTheFunctionOfOpcodeAndArgument : Obligations.DecodeIsTheFunctionOfOpcodeAndArgument := by
  unfold Obligations.DecodeIsTheFunctionOfOpcodeAndArgument
  intro cw
  simp (disch := decide) only [decode_toOption, opField_eq_iff, argField_eq_zero_iff, ← argField_eq_ofNat]

/-- Every command's row is in the opcode map. -/
theorem opcodeRow_mem_opcodeMap (i : Instr) : opcodeRow i ∈ opcodeMap := by
  cases i <;> simp [opcodeMap, opcodeRow]

/-- R42: the word of a command selects the command's row. -/
theorem selects_encode (i : Instr) : selects (encode i) (opcodeRow i) = true := by
  cases i with
  | seedScalar seed => exact (Laws.TableRow.seedScalar seed).2.1
  | seedArray len => exact (Laws.TableRow.seedArray len).2.1
  | nextU32 => exact Laws.TableRow.nextU32.2.1
  | nextF64 => exact Laws.TableRow.nextF64.2.1

/-- A row whose mask is the opcode byte is selected by the row's opcode with any argument. -/
theorem eq_append_argField_of_selects {cw : CmdWord} {op : BitVec 8}
    (h : selects cw ⟨op ++ 0#32, 0xFF#8 ++ 0#32⟩ = true) : cw = op ++ argField cw := by
  rw [← opField_append_argField cw] at h
  rw [← Laws.TableRow.opcode_of_selects h, opField_append_argField]

/-- A row whose mask has all bits is selected by its pattern alone. -/
theorem eq_pattern_of_selects {cw pattern : CmdWord} (h : selects cw ⟨pattern, BitVec.allOnes 40⟩ = true) :
    cw = pattern := by
  rwa [selects, beq_iff_eq, BitVec.and_allOnes] at h

/-- R42: a word that selects a row is the word of a command. -/
theorem exists_encode_of_selects {cw : CmdWord} {r : OpcodeRow} (hr : r ∈ opcodeMap) (h : selects cw r = true) :
    ∃ i, encode i = cw := by
  simp only [opcodeMap, List.mem_cons, List.not_mem_nil, or_false] at hr
  obtain rfl | rfl | rfl | rfl := hr
  · exact ⟨.seedScalar (argField cw), (eq_append_argField_of_selects (op := 0x01#8) h).symm⟩
  · exact ⟨.seedArray (argField cw), (eq_append_argField_of_selects (op := 0x02#8) h).symm⟩
  · exact ⟨.nextU32, (eq_pattern_of_selects h).symm⟩
  · exact ⟨.nextF64, (eq_pattern_of_selects h).symm⟩

/-- Settles O4: a word that selects a row is a command's (`exists_encode_of_selects`), and a command's word selects its own row
(`selects_encode`) and no other (`only_own_row`). -/
theorem opcodeMapRowsAreDisjointAndDecide : Obligations.OpcodeMapRowsAreDisjointAndDecide := by
  unfold Obligations.OpcodeMapRowsAreDisjointAndDecide
  refine ⟨rfl, ?_, ?_, fun cw => ⟨?_, ?_⟩, ⟨_, rfl⟩⟩
  · intro cw r hr r' hr' h h'
    obtain ⟨i, rfl⟩ := exists_encode_of_selects hr h
    rw [Laws.TableRow.only_own_row i r hr h, Laws.TableRow.only_own_row i r' hr' h']
  · intro cw i h
    rw [← decode_eq_ok_iff.mp h]
    exact selects_encode i
  · intro hnone
    cases h : decode cw with
    | error e => exact ⟨e, rfl⟩
    | ok i =>
      have hrow := hnone (opcodeRow i) (opcodeRow_mem_opcodeMap i)
      rw [← decode_eq_ok_iff.mp h, selects_encode i] at hrow
      cases hrow
  · rintro ⟨e, he⟩ r hr
    by_contra hsel
    obtain ⟨i, rfl⟩ := exists_encode_of_selects hr (Bool.eq_true_of_not_eq_false hsel)
    rw [decode_encode] at he
    cases he

/-- Settles O5: each word is evaluated by the decoder. -/
theorem decodeVectorsOfTheSpec : Obligations.DecodeVectorsOfTheSpec :=
  ⟨rfl, rfl, rfl, rfl, rfl, rfl, rfl, rfl, rfl, rfl, rfl, rfl, rfl⟩

end Sys2Proof
end

section
namespace Sys2Proof.Machine

/-! The textual form (R47, R48): the command words of the lines, and the key directive. -/

/-- R38: the word of a command whose `ARG` is `n` is `OP` × 2^32 + `n`. -/
theorem encode_eq_ofNat {i : Instr} {n : Nat} (hn : n < 2 ^ 32) (harg : argOf i = BitVec.ofNat 32 n) :
    encode i = BitVec.ofNat 40 ((opcodeOf i).toNat * 2 ^ 32 + n) := by
  apply BitVec.eq_of_toNat_eq
  have hop := (opcodeOf i).isLt
  rw [encode, harg, BitVec.toNat_append, BitVec.toNat_ofNat, Nat.mod_eq_of_lt hn, ← Nat.shiftLeft_add_eq_or_of_lt hn,
    Nat.shiftLeft_eq, BitVec.toNat_ofNat, Nat.mod_eq_of_lt (by omega)]

/-- R47: a seeding line in range presents `OP` × 2^32 + its operand. -/
theorem assemble_seedScalar {n : Nat} (hn : n < 2 ^ 32) :
    assemble (.seedScalar n) = some (.command (BitVec.ofNat 40 (0x01 * 2 ^ 32 + n))) :=
  (if_pos (decide_eq_true hn)).trans (congrArg (some ∘ Input.command) (encode_eq_ofNat hn rfl))

theorem assemble_seedArray {n : Nat} (hn : n < 2 ^ 32) :
    assemble (.seedArray n) = some (.command (BitVec.ofNat 40 (0x02 * 2 ^ 32 + n))) :=
  (if_pos (decide_eq_true hn)).trans (congrArg (some ∘ Input.command) (encode_eq_ofNat hn rfl))

/-- R47: a line that is not well formed is an error of the text. -/
theorem assemble_of_not_wellFormed {l : Line} (h : l.wellFormed = false) : assemble l = none := by
  simp [assemble, h]

/-- Settles O53: in range by `assemble_seedScalar` and `assemble_seedArray`; out of range the lines are not well formed. -/
theorem textLinesGiveTheirCommandWords : Obligations.TextLinesGiveTheirCommandWords :=
  ⟨fun _ hn => ⟨assemble_seedScalar hn, assemble_seedArray hn⟩, rfl, rfl, fun _ hn =>
    ⟨assemble_of_not_wellFormed (decide_eq_false (Nat.not_lt.mpr hn)),
      assemble_of_not_wellFormed (decide_eq_false (Nat.not_lt.mpr hn))⟩⟩

/-- Settles O54: each line is evaluated by the reader. -/
theorem textOfTheSpecIsRead : Obligations.TextOfTheSpecIsRead := by
  unfold Obligations.TextOfTheSpecIsRead
  decide +kernel

/-- R48: a step whose next input is the key directive sets the KEY space to its words. -/
theorem step_key {s : State} {ws : List U32} {rest : List Input} (h : s.inputs = .key ws :: rest) :
    step s = .next { s with key := Memory.ofWords 0 ws, inputs := rest } :=
  step_of_input h

/-- Settles O11: the new KEY space lists the words from index 0 (`Memory.read_ofWords`), canonically (`Memory.wf_ofWords`). -/
theorem keyDirectiveSuppliesTheWords : Obligations.KeyDirectiveSuppliesTheWords :=
  fun _ ws _ hinputs => ⟨Memory.ofWords 0 ws, step_key hinputs, Memory.wf_ofWords ws 0,
    fun j => by rw [Memory.read_ofWords, if_pos j.zero_le, Nat.sub_zero]⟩

end Sys2Proof.Machine
end

section
namespace Sys2Proof.Machine

open Sys2Proof.Safety

/-! The response of a command (R40, R41, R87). -/

/-- The `STATUS` a command answers in the state `s`: its own check, then `OK` (R87). -/
def commandStatus (s : State) : Instr → Status
  | .seedScalar _ => .ok
  | .seedArray len => if len = 0#32 then .errEmptyKey else .ok
  | .nextU32 => if s.seeded then .ok else .errUnseeded
  | .nextF64 => if s.seeded then .ok else .errUnseeded

/-- What R40 and R87 say of the response `r` to the command `i` in the state `s`. -/
structure AnswersCommand (s : State) (i : Instr) (r : Response) : Prop where
  status : r.status = commandStatus s i
  data_of_error : r.status ≠ .ok → r.data = 0#64
  data_of_seeding : ∀ x, i = .seedScalar x ∨ i = .seedArray x → r.data = 0#64
  data_of_nextU32 : i = .nextU32 → r.data.toNat < 2 ^ 32

/-- A response without data answers a command of its status. -/
theorem AnswersCommand.of_data_zero {s : State} {i : Instr} {st : Status} (h : st = commandStatus s i) :
    AnswersCommand s i ⟨st, 0#64⟩ where
  status := h
  data_of_error _ := rfl
  data_of_seeding _ _ := rfl
  data_of_nextU32 _ := Nat.two_pow_pos 32

/-- R40: the word of `NEXT_U32` stands in the low 32 bits of `DATA`. -/
theorem zext64_toNat_lt (r : U32) : (zext64 r).toNat < 2 ^ 32 := by
  rw [zext64, BitVec.toNat_setWidth_of_le (by decide)]
  exact r.isLt

/-- R40, R87: a command ends with one response, which answers it. -/
theorem exec_response {i : Instr} {s t : State} (h : exec i s = .next t) :
    ∃ r, t.trace = s.trace ++ [r] ∧ AnswersCommand s i r := by
  cases i with
  | seedScalar seed =>
    rw [execSeedScalar_cases h]
    exact ⟨_, rfl, .of_data_zero rfl⟩
  | seedArray len =>
    obtain ⟨hlen, rfl⟩ | ⟨hlen, rfl⟩ := execSeedArray_cases h
    · exact ⟨_, rfl, .of_data_zero (if_pos hlen).symm⟩
    · exact ⟨_, rfl, .of_data_zero (if_neg hlen).symm⟩
  | nextU32 =>
    obtain ⟨hs, rfl⟩ | ⟨hs, r, u, hd, rfl⟩ := execNextU32_cases h
    · exact ⟨_, rfl, .of_data_zero (by simp [commandStatus, hs, faultStatus])⟩
    · refine ⟨⟨.ok, zext64 r⟩, by simp [draw_fields hd], ?_⟩
      exact ⟨by simp [commandStatus, hs], fun hne => absurd rfl hne, by simp, fun _ => zext64_toNat_lt r⟩
  | nextF64 =>
    obtain ⟨hs, rfl⟩ | ⟨hs, r1, u, r2, v, hd1, hd2, rfl⟩ := execNextF64_cases h
    · exact ⟨_, rfl, .of_data_zero (by simp [commandStatus, hs, faultStatus])⟩
    · refine ⟨⟨.ok, f64Bits (f64Numerator r1 r2)⟩, by simp [draw_fields hd2, draw_fields hd1], ?_⟩
      exact ⟨by simp [commandStatus, hs], fun hne => absurd rfl hne, by simp, by simp⟩

/-- Settles O43: a reserved word answers without data, and a command by `exec_response`. -/
theorem exactlyOneResponsePerCommand : Obligations.ExactlyOneResponsePerCommand := by
  unfold Obligations.ExactlyOneResponsePerCommand
  intro s t cw rest hinputs hstep
  rw [step_command hinputs] at hstep
  obtain ⟨e, he, rfl⟩ | ⟨i, hi, hexec⟩ := acceptCommand_cases hstep
  · exact ⟨⟨.errIllegal, 0#64⟩, rfl, rfl, fun _ => rfl, fun _ _ => rfl, fun _ => by decide⟩
  · obtain ⟨r, htrace, hr⟩ := exec_response hexec
    obtain ⟨-, hrest, -⟩ := exec_frame hexec
    simp only [hi, Except.ok.injEq]
    exact ⟨r, htrace, hrest, hr.data_of_error, hr.data_of_seeding, hr.data_of_nextU32⟩

/-- Settles O44: from a legal index the step completes (`step_completes`); a reserved word answers `ERR_ILLEGAL`, and a command
the status of `exec_response`. -/
theorem statusOfEveryCommandWord : Obligations.StatusOfEveryCommandWord := by
  unfold Obligations.StatusOfEveryCommandWord
  refine ⟨⟨rfl, rfl, rfl, rfl⟩, fun s cw rest hinputs hlegal => ?_⟩
  obtain ⟨t, hstep⟩ := step_completes hlegal
  have hcmd := hstep
  rw [step_command hinputs] at hcmd
  obtain ⟨e, he, rfl⟩ | ⟨i, hi, hexec⟩ := acceptCommand_cases hcmd
  · exact ⟨_, 0#64, hstep, by rw [he]; rfl⟩
  · obtain ⟨⟨st, d⟩, htrace, hr⟩ := exec_response hexec
    obtain rfl : st = commandStatus { s with inputs := rest } i := hr.status
    refine ⟨t, d, hstep, htrace.trans ?_⟩
    rw [hi]
    cases i <;> rfl

end Sys2Proof.Machine
end

section
namespace Sys2Proof.Machine

/-! Scalar seeding (R56, R57): the recurrence in natural numbers, and every word as a function of the seed alone. -/

/-- R54: the shift by 30 is the quotient by 2^30. -/
theorem scramble_toNat (p : U32) : (scramble p).toNat = p.toNat ^^^ p.toNat / 2 ^ 30 := by
  rw [scramble, BitVec.toNat_xor, BitVec.toNat_ushiftRight, Nat.shiftRight_eq_div_pow]

/-- The product of the three recurrences (R56, R58, R59), modulo 2^32. -/
theorem mul_scramble_toNat (n : Nat) (p : U32) :
    (BitVec.ofNat 32 n * scramble p).toNat = n * (p.toNat ^^^ p.toNat / 2 ^ 30) % 2 ^ 32 := by
  rw [BitVec.toNat_mul, scramble_toNat, BitVec.toNat_ofNat, Nat.mod_mul_mod]

/-- R56: the recurrence, modulo 2^32. -/
theorem scalarNext_toNat (p : U32) (i : Nat) :
    (scalarNext p i).toNat = (1812433253 * (p.toNat ^^^ p.toNat / 2 ^ 30) + i) % 2 ^ 32 := by
  rw [scalarNext, BitVec.toNat_add, mul_scramble_toNat, BitVec.toNat_ofNat, ← Nat.add_mod]

/-- R56: the words 1 to 623 of a scalar seeding, in natural numbers. -/
theorem scalarInit_word_toNat (seed : U32) (mt : Mt) {i : Fin 624} (hi : i ≠ 0) :
    ((scalarInit seed mt).word i).toNat =
      (1812433253 * (((scalarInit seed mt).word (i - 1)).toNat ^^^ ((scalarInit seed mt).word (i - 1)).toNat / 2 ^ 30)
        + i.val) % 2 ^ 32 := by
  rw [scalarInit_word_of_ne_zero seed mt hi, scalarNext_toNat]

/-- The recurrence of R56 run `n` times from a seed, without a vector. -/
def scalarWord (seed : U32) : Nat → U32
  | 0 => seed
  | n + 1 => scalarNext (scalarWord seed n) (n + 1)

/-- Word `n` of a scalar seeding is the `n`-fold recurrence. -/
theorem scalarInit_word (seed : U32) (mt : Mt) (n : Nat) (hn : n < 624) :
    (scalarInit seed mt).word ⟨n, hn⟩ = scalarWord seed n := by
  induction n with
  | zero => exact scalarInit_word_zero seed mt
  | succ n ih =>
    have hne : (⟨n + 1, hn⟩ : Fin 624) ≠ 0 := by simp [Fin.ext_iff]
    have hpred : (⟨n + 1, hn⟩ : Fin 624) - 1 = ⟨n, by omega⟩ := Fin.ext (Fin.val_sub_one_of_ne_zero hne)
    rw [scalarInit_word_of_ne_zero seed mt hne, hpred, ih, scalarWord]

/-- A word of a scalar seeding is evaluated by its recurrence. -/
theorem scalarInit_word_eq {seed : U32} {n : Nat} {w : U32} (h : scalarWord seed n = w) (mt : Mt) (hn : n < 624) :
    (scalarInit seed mt).word ⟨n, hn⟩ = w :=
  (scalarInit_word seed mt n hn).trans h

/-- Settles O15: `scalarInit_word_toNat`, and the worked example by running the recurrence. -/
theorem scalarInitFollowsTheRecurrence : Obligations.ScalarInitFollowsTheRecurrence :=
  ⟨fun seed mt => ⟨scalarInit_word_zero seed mt, fun _ hi => scalarInit_word_toNat seed mt hi⟩,
    fun mt => ⟨scalarInit_word_eq (n := 1) (by decide) mt _, scalarInit_word_eq (n := 2) (by decide) mt _,
      scalarInit_word_eq (n := 3) (by decide) mt _⟩⟩

/-- R57: `SEED_SCALAR` from every state. -/
theorem exec_seedScalar (seed : U32) (s : State) :
    exec (.seedScalar seed) s = .next (respond .ok 0#64 (markSeeded { s with mt := scalarInit seed s.mt })) := rfl

/-- R38, R43: a word of `OP` × 2^32 + `ARG` decodes to the command of that `OP` and `ARG`. -/
theorem decode_ofNat {i : Instr} : decode (BitVec.ofNat 40 ((opcodeOf i).toNat * 2 ^ 32 + (argOf i).toNat)) = .ok i := by
  have harg : argOf i = BitVec.ofNat 32 (argOf i).toNat := by simp
  rw [← encode_eq_ofNat (argOf i).isLt harg, decode_encode]

/-- The last word of the seed 69 (R57): 623 steps of the recurrence, run by the kernel. -/
theorem scalarWord_69_last : scalarWord 69#32 623 = 0xC12D8A66#32 := by decide +kernel

/-- Settles O16: the vector is that of `SCALAR_INIT` (`scalarInit_word_toNat`), and R57's words are runs of the recurrence. -/
theorem seedScalarCompletes : Obligations.SeedScalarCompletes := by
  unfold Obligations.SeedScalarCompletes
  refine ⟨fun seed => decode_ofNat (i := .seedScalar seed), fun seed s => ?_⟩
  refine ⟨scalarInit seed s.mt, exec_seedScalar seed s, scalarInit_word_zero seed s.mt,
    fun i hi => scalarInit_word_toNat seed s.mt hi, ?_, ?_, ?_⟩
  · rintro rfl
    exact scalarInit_word_eq (n := 1) (by decide) s.mt _
  · rintro rfl
    exact scalarInit_word_eq (n := 1) (by decide) s.mt _
  · rintro rfl
    exact ⟨scalarInit_word_eq (n := 1) (by decide) s.mt _, scalarInit_word_eq (n := 2) (by decide) s.mt _,
      scalarInit_word_eq scalarWord_69_last s.mt _⟩

/-- R57, R60: the end of a seeding takes two states of the same vector to the same `mt`, `index` and `SEEDED`. -/
theorem respond_markSeeded_agree {s s' : State} (h : s.mt = s'.mt) (st : Status) (d : Data) :
    (respond st d (markSeeded s)).mt = (respond st d (markSeeded s')).mt ∧
    (respond st d (markSeeded s)).index = (respond st d (markSeeded s')).index ∧
    (respond st d (markSeeded s)).seeded = (respond st d (markSeeded s')).seeded :=
  ⟨h, rfl, rfl⟩

/-- Settles O17: the vector after is a function of the seed (`scalarInit_eq_scalarInit`), `index` and `SEEDED` are constants. -/
theorem seedScalarForgetsTheOldState : Obligations.SeedScalarForgetsTheOldState :=
  fun seed s s' => ⟨_, _, exec_seedScalar seed s, exec_seedScalar seed s',
    respond_markSeeded_agree (scalarInit_eq_scalarInit seed s.mt s'.mt) _ _⟩

end Sys2Proof.Machine
end

section
namespace Sys2Proof.Machine

/-! The iterations of the two mixing passes (R58, R59). Both write one word and go on by the wrap rule. -/

/-- Write the word the cursor is at and go on: what an iteration of either pass does to the cursor. -/
def Cursor.put (c : Cursor) (w : U32) : Cursor := Cursor.advance { mt := c.mt.setWord c.i w, i := c.i }

/-- The wrap rule writes word 0 alone. -/
theorem Cursor.advance_word_of_ne_zero (c : Cursor) {n : Fin 624} (hn : n ≠ 0) :
    c.advance.mt.word n = c.mt.word n := by
  unfold Cursor.advance
  split
  · rfl
  · exact Mt.word_setWord_of_ne _ _ hn

/-- At 623 the wrap rule copies word 623 into word 0. -/
theorem Cursor.advance_word_zero_of_last {c : Cursor} (hi : c.i = 623) : c.advance.mt.word 0 = c.mt.word 623 := by
  rw [Cursor.advance, dif_neg (by simp [hi]), Mt.word_setWord_self]

/-- Below 623 the wrap rule writes nothing. -/
theorem Cursor.advance_mt_of_ne_last {c : Cursor} (hi : c.i ≠ 623) : c.advance.mt = c.mt := by
  have hlt : c.i.val + 1 < 624 := by
    have hne : c.i.val ≠ 623 := fun e => hi (Fin.ext e)
    omega
  rw [Cursor.advance, dif_pos hlt]

@[simp] theorem Cursor.put_i_val (c : Cursor) (w : U32) : (c.put w).i.val = 1 + c.i.val % 623 :=
  Cursor.advance_i_val _

/-- R58, R59: the word at the cursor is the one written. -/
theorem Cursor.put_word_self {c : Cursor} (hi : c.i ≠ 0) (w : U32) : (c.put w).mt.word c.i = w :=
  (Cursor.advance_word_of_ne_zero _ hi).trans (Mt.word_setWord_self _ _ _)

/-- R58, R59: at 623 word 0 becomes a copy of the new word 623. -/
theorem Cursor.put_word_zero_of_last {c : Cursor} (hi : c.i = 623) (w : U32) :
    (c.put w).mt.word 0 = (c.put w).mt.word 623 := by
  have hcopy := Cursor.advance_word_zero_of_last (c := ⟨c.mt.setWord c.i w, c.i⟩) hi
  exact hcopy.trans (Cursor.advance_word_of_ne_zero _ (by decide)).symm

/-- R58, R59: every word but the one at the cursor stays, and but for word 0 at 623. -/
theorem Cursor.put_word_of_ne {c : Cursor} {n : Fin 624} (hn : n ≠ c.i) (hzero : c.i = 623 → n ≠ 0) (w : U32) :
    (c.put w).mt.word n = c.mt.word n := by
  have hset : (c.mt.setWord c.i w).word n = c.mt.word n := Mt.word_setWord_of_ne _ _ hn
  by_cases hi : c.i = 623
  · exact (Cursor.advance_word_of_ne_zero _ (hzero hi)).trans hset
  · have hmt := Cursor.advance_mt_of_ne_last (c := ⟨c.mt.setWord c.i w, c.i⟩) hi
    rw [Cursor.put, hmt, hset]

/-- The word an iteration of `MIX1` writes (R58). -/
def mix1Word (key : Memory) (m : Mix1) : U32 :=
  ((m.cur.mt.word m.cur.i ^^^ (Config.mix1Mult * scramble (m.cur.mt.word (m.cur.i - 1)))) + keyRead key m.reads m.j)
    + BitVec.ofNat 32 m.j

theorem mix1Step_cur (key : Memory) (len : Nat) (m : Mix1) : (mix1Step key len m).cur = m.cur.put (mix1Word key m) := rfl

/-- R58: the transform of `MIX1` in natural numbers. -/
theorem mix1Word_toNat (key : Memory) (m : Mix1) :
    (mix1Word key m).toNat = (((m.cur.mt.word m.cur.i).toNat ^^^
      1664525 * ((m.cur.mt.word (m.cur.i - 1)).toNat ^^^ (m.cur.mt.word (m.cur.i - 1)).toNat / 2 ^ 30) % 2 ^ 32)
      + (keyRead key m.reads m.j).toNat + m.j) % 2 ^ 32 := by
  rw [mix1Word, BitVec.toNat_add, BitVec.toNat_add, BitVec.toNat_xor, mul_scramble_toNat, BitVec.toNat_ofNat,
    ← Nat.add_mod]

/-- Settles O18: the positions are those of `mix1Progress_iterate`, and the iteration writes `mix1Word` and goes on
(`Cursor.put`). -/
theorem firstMixingPassIterations : Obligations.FirstMixingPassIterations := by
  unfold Obligations.FirstMixingPassIterations
  refine ⟨fun key reads len mt => by unfold mix1; rfl, ?_⟩
  intro key reads len k mt hlen _ m m' hm hm'
  have hprog : Mix1Progress reads len k m := hm ▸ mix1Progress_iterate key reads mt hlen k
  have hi : m.cur.i ≠ 0 := Fin.val_ne_zero_iff.mp (by rw [hprog.i_val]; omega)
  have hcur : m'.cur = m.cur.put (mix1Word key m) := by
    rw [hm', Function.iterate_succ_apply', ← hm, mix1Step_cur]
  rw [hcur, ← hprog.j]
  exact ⟨hprog.i_val, rfl, by rw [Cursor.put_word_self hi, mix1Word_toNat],
    fun hlast => Cursor.put_word_zero_of_last hlast _, fun n hn hzero => Cursor.put_word_of_ne hn hzero _⟩

/-- The word an iteration of `MIX2` writes (R59). -/
def mix2Word (c : Cursor) : U32 :=
  (c.mt.word c.i ^^^ (Config.mix2Mult * scramble (c.mt.word (c.i - 1)))) - BitVec.ofNat 32 c.i.val

theorem mix2Step_eq_put (c : Cursor) : mix2Step c = c.put (mix2Word c) := rfl

/-- R59: the transform of `MIX2` in natural numbers; with the word number added back it is the term before the subtraction. -/
theorem mix2Word_toNat_add (c : Cursor) :
    ((mix2Word c).toNat + c.i.val) % 2 ^ 32 = ((c.mt.word c.i).toNat ^^^
      1566083941 * ((c.mt.word (c.i - 1)).toNat ^^^ (c.mt.word (c.i - 1)).toNat / 2 ^ 30) % 2 ^ 32) := by
  have hadd : mix2Word c + BitVec.ofNat 32 c.i.val =
      c.mt.word c.i ^^^ (Config.mix2Mult * scramble (c.mt.word (c.i - 1))) := BitVec.sub_add_cancel _ _
  rw [← mul_scramble_toNat, ← BitVec.toNat_xor, ← hadd, BitVec.toNat_add, BitVec.toNat_ofNat, Nat.add_mod_mod]

/-- R59: where `MIX2` stands after `k` iterations; it visits the word numbers 1 to 623 cyclically. -/
theorem mix2Step_iterate_i_val {c : Cursor} (hi : c.i ≠ 0) (k : Nat) :
    (mix2Step^[k] c).i.val = 1 + (c.i.val - 1 + k) % 623 := by
  have hpos : c.i.val ≠ 0 := Fin.val_ne_zero_iff.mpr hi
  refine iterate_induction (fun k (d : Cursor) => d.i.val = 1 + (c.i.val - 1 + k) % 623) mix2Step c ?_ ?_ k
  · omega
  · intro k d ih
    rw [mix2Step_eq_put, Cursor.put_i_val, ih]
    omega

/-- Settles O20: the positions are those of `mix2Step_iterate_i_val`, and the iteration writes `mix2Word` and goes on
(`Cursor.put`); 623 iterations are one round of the positions. -/
theorem secondMixingPassIterations : Obligations.SecondMixingPassIterations := by
  unfold Obligations.SecondMixingPassIterations
  refine ⟨fun c => by unfold mix2; rfl, fun c k hc => ⟨?_, ?_⟩⟩
  · intro d d' hd hd'
    have hval : d.i.val = 1 + (c.i.val - 1 + k) % 623 := hd ▸ mix2Step_iterate_i_val hc k
    have hi : d.i ≠ 0 := Fin.val_ne_zero_iff.mp (by omega)
    have hput : d' = d.put (mix2Word d) := by rw [hd', Function.iterate_succ_apply', ← hd, mix2Step_eq_put]
    rw [hput]
    exact ⟨hval, by rw [Cursor.put_word_self hi, mix2Word_toNat_add],
      fun hlast => Cursor.put_word_zero_of_last hlast _, fun n hn hzero => Cursor.put_word_of_ne hn hzero _⟩
  · have hpos : c.i.val ≠ 0 := Fin.val_ne_zero_iff.mpr hc
    have hround := mix2Step_iterate_i_val hc 623
    unfold mix2
    exact Fin.ext (by omega)

end Sys2Proof.Machine
end

section
namespace Sys2Proof.Machine

/-! Array seeding (R60, R62): the command from every state, and what its result depends on. -/

/-- A key length other than 0 is at least one word (R39). -/
theorem one_le_toNat {len : U32} (h : len ≠ 0#32) : 1 ≤ len.toNat :=
  Nat.one_le_iff_ne_zero.mpr fun e => h (BitVec.eq_of_toNat_eq e)

/-- R60: the state `SEED_ARRAY` answers for a key of at least one word, with the key reads of R27. -/
theorem exec_seedArray_nonempty {len : U32} (hlen : len ≠ 0#32) (s : State) :
    exec (.seedArray len) s = .next { s with
      mt := (arraySeed len.toNat s).mt, index := 624#10, seeded := true
      keyReads := s.keyReads ++ (List.range (max 624 len.toNat)).map (fun k => k % len.toNat)
      trace := s.trace ++ [⟨.ok, 0#64⟩] } := by
  obtain ⟨hreads, -⟩ :=
    firstMixingPassReadsTheKeyCyclically s.key s.keyReads len.toNat (scalarInit Config.arrayBaseSeed s.mt)
      (one_le_toNat hlen)
  rw [← hreads, ← arraySeed_keyReads]
  exact execSeedArray_nonempty hlen s

/-- R60: the last step forces word 0 and leaves the words of the mixing passes. -/
theorem arraySeed_word_of_ne_zero (len : Nat) (s : State) {i : Fin 624} (hi : i ≠ 0) :
    (arraySeed len s).mt.word i =
      (mix2 (mix1 s.key s.keyReads len (scalarInit Config.arrayBaseSeed s.mt)).cur).mt.word i := by
  rw [arraySeed_mt, Mt.word_setWord_of_ne _ _ hi]

/-- Settles O21: `exec_seedArray_nonempty`, the words of `arraySeed`, and `execSeedArray_empty` for the key length 0. -/
theorem seedArrayCompletes : Obligations.SeedArrayCompletes := by
  unfold Obligations.SeedArrayCompletes
  refine ⟨fun len => decode_ofNat (i := .seedArray len), execSeedArray_empty, fun len s hlen => ?_⟩
  refine ⟨(arraySeed len.toNat s).mt, exec_seedArray_nonempty hlen s, ?_, fun i hi => ?_⟩
  · rw [arraySeed_mt, Mt.word_setWord_self]
  · exact arraySeed_word_of_ne_zero len.toNat s hi

/-- Both KEY spaces supply the same words below `len`. -/
def SupplySameBelow (len : Nat) (key key' : Memory) : Prop :=
  ∀ j : Nat, j < len → ∃ w, key.read? j = some w ∧ key'.read? j = some w

section
variable {len : Nat} {key key' : Memory} (h : SupplySameBelow len key key')
include h

/-- R33: where the word at `j` is supplied, `KeyRead(j)` does not depend on the reads before it. -/
theorem keyRead_congr (reads reads' : List Nat) {j : Nat} (hj : j < len) : keyRead key reads j = keyRead key' reads' j := by
  obtain ⟨w, hw, hw'⟩ := h j hj
  rw [keyRead_of_supplied hw, keyRead_of_supplied hw']

/-- R58, R62: an iteration of `MIX1` at one place writes the same word with both keys. -/
theorem mix1Word_congr {m m' : Mix1} (hcur : m.cur = m'.cur) (hj : m.j = m'.j) (hlt : m.j < len) :
    mix1Word key m = mix1Word key' m' := by
  rw [mix1Word, keyRead_congr h m.reads m'.reads hlt, hcur, hj, mix1Word]

/-- R62: `MIX1` takes both keys through the same vectors; it is at the same `j` in both (`mix1Progress_iterate`). -/
theorem mix1_iterate_cur_congr (reads reads' : List Nat) (mt : Mt) (hlen : 1 ≤ len) (k : Nat) :
    ((mix1Step key len)^[k] ⟨⟨mt, 1⟩, 0, reads⟩).cur = ((mix1Step key' len)^[k] ⟨⟨mt, 1⟩, 0, reads'⟩).cur := by
  induction k with
  | zero => rfl
  | succ k ih =>
    have hj := (mix1Progress_iterate key reads mt hlen k).j
    have hj' := (mix1Progress_iterate key' reads' mt hlen k).j
    have hword := mix1Word_congr h ih (hj.trans hj'.symm) (hj ▸ Nat.mod_lt k hlen)
    rw [Function.iterate_succ_apply', Function.iterate_succ_apply', mix1Step_cur, mix1Step_cur, ih, hword]

theorem mix1_cur_congr (reads reads' : List Nat) (mt : Mt) (hlen : 1 ≤ len) :
    (mix1 key reads len mt).cur = (mix1 key' reads' len mt).cur := by
  unfold mix1
  exact mix1_iterate_cur_congr h reads reads' mt hlen _

end

/-- R62: the vector of an array seeding is a function of the supplied words. -/
theorem arraySeed_mt_congr {len : Nat} {s s' : State} (h : SupplySameBelow len s.key s'.key) (hlen : 1 ≤ len) :
    (arraySeed len s).mt = (arraySeed len s').mt := by
  rw [arraySeed_mt, arraySeed_mt, scalarInit_eq_scalarInit _ s.mt s'.mt, mix1_cur_congr h s.keyReads s'.keyReads _ hlen]

/-- Settles O23: the vector is `arraySeed_mt_congr`, `index` and `SEEDED` are constants. -/
theorem seedArrayDependsOnItsKeyWordsOnly : Obligations.SeedArrayDependsOnItsKeyWordsOnly := by
  unfold Obligations.SeedArrayDependsOnItsKeyWordsOnly
  intro len s s' hlen hkey
  have hmt := arraySeed_mt_congr hkey (one_le_toNat hlen)
  exact ⟨_, _, execSeedArray_nonempty hlen s, execSeedArray_nonempty hlen s', respond_markSeeded_agree hmt _ _⟩

end Sys2Proof.Machine
end

section
namespace Sys2Proof.Machine

/-! The regeneration iteration by iteration (R65): in place and in order, equal to its three loops (R66), and blind to the low
bits of word 0. -/

/-- R64: the twist takes bit 31 of its first operand and bits 30 to 0 of its second. -/
theorem twist_congr {u u' v v' : U32} (w : U32) (hu : u.getLsbD 31 = u'.getLsbD 31)
    (hv : ∀ k : Nat, k < 31 → v.getLsbD k = v'.getLsbD k) : twist u v w = twist u' v' w := by
  refine BitVec.eq_of_getLsbD_eq fun k hk => ?_
  rw [getLsbD_twist u v w hk, getLsbD_twist u' v' w hk, hu, hv 0 (by decide)]
  by_cases h31 : k = 31
  · rw [if_pos h31, if_pos h31]
  · by_cases h30 : k = 30
    · rw [if_pos h30, if_pos h30]
    · rw [if_neg h30, if_neg h30, hv (k + 1) (by omega)]

/-- Settles O25: the bits are `getLsbD_twist`, and bits that do not stand there have no effect (`twist_congr`). -/
theorem twistBitByBit : Obligations.TwistBitByBit :=
  ⟨fun u v w _ hk => getLsbD_twist u v w hk, fun _ _ _ _ w hu hv => twist_congr w hu hv, by decide⟩

/-- The vector before iteration `k` of `REGEN`, for `k` up to 624 (R65). -/
def regenBefore (mt : Mt) : Nat → Mt
  | 0 => mt
  | k + 1 => if h : k < 624 then regenCell ⟨k, h⟩ (regenBefore mt k) else regenBefore mt k

theorem regenBefore_zero (mt : Mt) : regenBefore mt 0 = mt := rfl

theorem regenBefore_succ (mt : Mt) {k : Nat} (hk : k < 624) :
    regenBefore mt (k + 1) = regenCell ⟨k, hk⟩ (regenBefore mt k) := by
  rw [regenBefore, dif_pos hk]

/-- A loop that starts before iteration `j` of `REGEN` and makes the iterations from `j` on ends before iteration `n + j`. -/
theorem fold_regenBefore (mt : Mt) {j n : Nat} (hn : n + j ≤ 624) {body : (i : Nat) → i < n → Mt → Mt}
    (hbody : ∀ i (h : i < n) m, body i h m = regenCell ⟨i + j, by omega⟩ m) :
    Nat.fold n body (regenBefore mt j) = regenBefore mt (n + j) := by
  refine fold_induction (fun i m => m = regenBefore mt (i + j)) n _ _ (by rw [Nat.zero_add]) fun i hi m ih => ?_
  rw [hbody, ih, Nat.add_right_comm, regenBefore_succ mt (by omega)]

/-- R65: `REGEN` makes its 624 iterations in order. -/
theorem regenMt_eq_regenBefore (mt : Mt) : regenMt mt = regenBefore mt 624 := by
  unfold regenMt
  exact fold_regenBefore mt (j := 0) le_rfl fun _ _ _ => rfl

/-- Settles O26: the vectors between the iterations are `regenBefore`, and the rows of R65's table are proved one by one. -/
theorem regenerationInPlace : Obligations.RegenerationInPlace := by
  unfold Obligations.RegenerationInPlace
  intro s
  refine ⟨regenMt s.mt, rfl, ⟨regenBefore s.mt, regenBefore_zero s.mt, (regenMt_eq_regenBefore s.mt).symm, ?_⟩, ?_, ?_, ?_⟩
  · exact fun i => regenBefore_succ s.mt i.isLt
  · exact fun i hi => regenMt_word_of_le s.mt hi
  · exact fun i hlo hhi => regenMt_word_of_mid s.mt hlo hhi
  · exact regenMt_word_last s.mt

/-- R66, first loop: in iterations 0 to 226 no sum of word numbers reaches 624. -/
theorem regenCell_of_lt_227 (mt : Mt) {i : Nat} (hi : i < 227) :
    regenCell ⟨i, by omega⟩ mt = mt.setWord ⟨i, by omega⟩
      (twist (mt.word ⟨i, by omega⟩) (mt.word ⟨i + 1, by omega⟩) (mt.word ⟨i + 397, by omega⟩)) := by
  have h1 : (⟨i, by omega⟩ + 1 : Fin 624) = ⟨i + 1, by omega⟩ :=
    Fin.ext ((val_add_one _).trans (show (i + 1) % 624 = i + 1 by omega))
  have h397 : (⟨i, by omega⟩ + 397 : Fin 624) = ⟨i + 397, by omega⟩ :=
    Fin.ext ((val_add_397 _).trans (show (i + 397) % 624 = i + 397 by omega))
  rw [regenCell, h1, h397]

/-- R66, second loop: in iterations 227 to 622 the third word number wraps to `i` − 227. -/
theorem regenCell_add_227 (mt : Mt) {k : Nat} (hk : k < 396) :
    regenCell ⟨k + 227, by omega⟩ mt = mt.setWord ⟨k + 227, by omega⟩
      (twist (mt.word ⟨k + 227, by omega⟩) (mt.word ⟨k + 228, by omega⟩) (mt.word ⟨k, by omega⟩)) := by
  have h1 : (⟨k + 227, by omega⟩ + 1 : Fin 624) = ⟨k + 228, by omega⟩ :=
    Fin.ext ((val_add_one _).trans (show (k + 227 + 1) % 624 = k + 228 by omega))
  have h397 : (⟨k + 227, by omega⟩ + 397 : Fin 624) = ⟨k, by omega⟩ :=
    Fin.ext ((val_add_397 _).trans (show (k + 227 + 397) % 624 = k by omega))
  rw [regenCell, h1, h397]

/-- Settles O27: the first loop makes iterations 0 to 226, the second 227 to 622 (`fold_regenBefore`), and the last write is
iteration 623. -/
theorem regenerationEqualsItsThreeLoops : Obligations.RegenerationEqualsItsThreeLoops := by
  unfold Obligations.RegenerationEqualsItsThreeLoops
  intro mt
  have hfirst := fold_regenBefore mt (j := 0) (n := 227) (by decide) fun i hi m => (regenCell_of_lt_227 m hi).symm
  have hsecond := fold_regenBefore mt (j := 227) (n := 396) (by decide) fun k hk m => (regenCell_add_227 m hk).symm
  rw [regenBefore_zero] at hfirst
  rw [regenMt_eq_regenBefore, regenBefore_succ mt (k := 623) (by decide)]
  unfold regenMtSplit
  dsimp only
  rw [hfirst, hsecond]
  rfl

/-- R65: iteration 0 overwrites word 0 and reads nothing of it but bit 31. -/
theorem regenCell_zero_congr {mt mt' : Mt} (htop : (mt.word 0).getLsbD 31 = (mt'.word 0).getLsbD 31)
    (hrest : ∀ i : Fin 624, i ≠ 0 → mt.word i = mt'.word i) : regenCell 0 mt = regenCell 0 mt' := by
  refine Mt.ext_word fun i => ?_
  rw [regenCell, regenCell, Mt.word_setWord, Mt.word_setWord, hrest (0 + 1) (by decide), hrest (0 + 397) (by decide),
    twist_congr _ htop fun _ _ => rfl]
  by_cases hi : i = 0
  · rw [if_pos hi, if_pos hi]
  · rw [if_neg hi, if_neg hi, hrest i hi]

/-- Two loops that stand at the same vector after an iteration stay together. -/
theorem regenBefore_congr_of_le {mt mt' : Mt} {j k : Nat} (hjk : j ≤ k) (h : regenBefore mt j = regenBefore mt' j) :
    regenBefore mt k = regenBefore mt' k := by
  induction k, hjk using Nat.le_induction with
  | base => exact h
  | succ k _ ih => rw [regenBefore, regenBefore, ih]

/-- Settles O28: after iteration 0 both loops stand at the same vector (`regenCell_zero_congr`). -/
theorem regenerationIgnoresLowBitsOfWordZero : Obligations.RegenerationIgnoresLowBitsOfWordZero := by
  unfold Obligations.RegenerationIgnoresLowBitsOfWordZero
  intro mt mt' htop hrest
  rw [regenMt_eq_regenBefore, regenMt_eq_regenBefore]
  exact regenBefore_congr_of_le (j := 1) (by decide) (regenCell_zero_congr htop hrest)

end Sys2Proof.Machine
end

section
namespace Sys2Proof.Machine

/-! The regeneration boundary (R68): where draws after a seeding stand, first for one draw, then for a command, then for a run. -/

/-- R68: the vector and the index `d` draws after a seeding that left the vector `mt`; for `d` = 0 the index is 624, as the seeding
leaves it (R57, R60). -/
def AfterDraws (mt : Mt) (d : Nat) (s : State) : Prop :=
  s.mt = regenMt^[(d + 623) / 624] mt ∧ s.index.toNat = (d + 623) % 624 + 1

/-- `AfterDraws` speaks of the vector and the index alone. -/
theorem AfterDraws.of_respond {mt : Mt} {d : Nat} {s : State} (h : AfterDraws mt d s) (st : Status) (data : Data) :
    AfterDraws mt d (respond st data s) := h

/-- The next draw regenerates where the number of draws so far is a multiple of 624, and takes the next word otherwise (R63,
R71). -/
theorem AfterDraws.exists_draw {mt : Mt} {d : Nat} {s : State} (h : AfterDraws mt d s) :
    ∃ r t, draw s = some (r, t) ∧ AfterDraws mt (d + 1) t := by
  obtain ⟨hmt, hindex⟩ := h
  by_cases hfull : d % 624 = 0
  · have hindex' : s.index = 624#10 := BitVec.eq_of_toNat_eq (by rw [hindex]; show _ = 624; omega)
    have hcount : (d + 1 + 623) / 624 = (d + 623) / 624 + 1 := by omega
    refine ⟨_, _, draw_exhausted hindex', ?_, ?_⟩
    · rw [hcount, Function.iterate_succ_apply', hmt]
    · show 1 = (d + 1 + 623) % 624 + 1
      omega
  · have hindex' : s.index.toNat < 624 := by omega
    have hcount : (d + 1 + 623) / 624 = (d + 623) / 624 := by omega
    refine ⟨_, _, draw_buffered hindex', ?_, ?_⟩
    · rw [hcount, hmt]
    · simp only [BitVec.toNat_add, BitVec.toNat_ofNat, hindex]
      omega

/-- The draws of an extraction: two of a `NEXT_F64`, one of a `NEXT_U32` (R68, R72, R75). -/
def drawsOf (i : Instr) : Nat := if i = .nextF64 then 2 else 1

/-- An extraction from a seeded state completes, and the state is then as many draws on as it makes. -/
theorem AfterDraws.exists_exec {mt : Mt} {d : Nat} {s : State} {i : Instr} (h : AfterDraws mt d s) (hs : s.seeded = true)
    (hi : i = .nextU32 ∨ i = .nextF64) : ∃ t, exec i s = .next t ∧ AfterDraws mt (d + drawsOf i) t := by
  obtain ⟨r1, t, hd1, ht⟩ := h.exists_draw
  obtain rfl | rfl := hi
  · exact ⟨_, execNextU32_of_draw hs hd1, ht.of_respond _ _⟩
  · obtain ⟨r2, u, hd2, hu⟩ := ht.exists_draw
    exact ⟨_, execNextF64_of_draws hs hd1 hd2, hu.of_respond _ _⟩

/-- A run over presented extractions answers each of them, and the state is then as many draws on as they make together. -/
theorem AfterDraws.exists_run {mt : Mt} {cmds : List Instr} (hcmds : ∀ i ∈ cmds, i = .nextU32 ∨ i = .nextF64) {d : Nat} {s : State}
    (h : AfterDraws mt d s) (hs : s.seeded = true) (hin : s.inputs = cmds.map fun i => .command (encode i)) :
    ∃ t : State, core.run cmds.length s = .next t ∧ AfterDraws mt (d + (cmds.map drawsOf).sum) t ∧
      t.trace.length = s.trace.length + cmds.length ∧ t.inputs = [] ∧ t.seeded = true := by
  induction cmds generalizing d s with
  | nil => exact ⟨s, rfl, h, rfl, hin, hs⟩
  | cons i cmds ih =>
    obtain ⟨hi, hrest⟩ := List.forall_mem_cons.mp hcmds
    obtain ⟨t, hexec, ht⟩ :=
      AfterDraws.exists_exec (s := { s with inputs := cmds.map fun i => .command (encode i) }) h hs hi
    obtain ⟨-, hinputs, -, r, htrace⟩ := exec_frame hexec
    obtain ⟨u, hrun, hu, hlen, hempty, hseeded⟩ := ih hrest ht ((exec_extraction_seeded hi hexec).trans hs) hinputs
    have hstep : step s = .next t := by
      rw [step_command hin, acceptCommand_of_decode_ok (decode_encode i), hexec]
    refine ⟨u, (run_succ_of_step (M := core) hstep _).trans hrun, ?_, ?_, hempty, hseeded⟩
    · rwa [List.map_cons, List.sum_cons, ← Nat.add_assoc]
    · have ht1 : t.trace.length = s.trace.length + 1 := by rw [htrace, List.length_append, List.length_singleton]
      rw [hlen, ht1, List.length_cons]
      omega

/-- Every extraction makes a draw, so a non-empty list of them makes one. -/
theorem one_le_sum_drawsOf {cmds : List Instr} (h : cmds ≠ []) : 1 ≤ (cmds.map drawsOf).sum := by
  have hone : ∀ n ∈ cmds.map drawsOf, 1 ≤ n := by
    intro n hn
    obtain ⟨i, -, rfl⟩ := List.mem_map.mp hn
    unfold drawsOf
    split <;> decide
  calc 1 ≤ (cmds.map drawsOf).length := by rw [List.length_map]; exact List.length_pos_iff.mpr h
    _ ≤ _ := List.length_le_sum_of_one_le _ hone

/-- Settles O55: right after a seeding no draw has been made (`AfterDraws` at 0), and the run makes `d` of them
(`AfterDraws.exists_run`), at least one. -/
theorem mixedExtractionsFollowTheBoundary : Obligations.MixedExtractionsFollowTheBoundary := by
  unfold Obligations.MixedExtractionsFollowTheBoundary
  intro s cmds d hs hindex hne hcmds hd hin
  have hstart : AfterDraws s.mt 0 s := ⟨rfl, by rw [hindex]; rfl⟩
  obtain ⟨t, hrun, ht, htrace, hempty, hseeded⟩ := hstart.exists_run hcmds hs hin
  obtain ⟨hmt, hend⟩ : AfterDraws s.mt d t := by rwa [Nat.zero_add, ← show d = (cmds.map drawsOf).sum from hd] at ht
  have hpos : 1 ≤ d := hd ▸ one_le_sum_drawsOf hne
  exact ⟨t, hrun, by omega, hmt, htrace, hempty, hseeded⟩

/-- Settles O41: O55 for a list of `NEXT_U32` alone, which make one draw each. -/
theorem regenerationBoundary : Obligations.RegenerationBoundary := by
  unfold Obligations.RegenerationBoundary
  intro s d hs hindex hpos hin
  have hne : List.replicate d Instr.nextU32 ≠ [] := by rw [ne_eq, List.replicate_eq_nil_iff]; omega
  have hword : encode .nextU32 = 0x0300000000#40 := by decide
  have h := mixedExtractionsFollowTheBoundary s (List.replicate d .nextU32) d hs hindex hne
    (fun i hi => .inl (List.eq_of_mem_replicate hi)) (by simp) (by rw [hin, List.map_replicate, hword])
  rwa [List.length_replicate] at h

end Sys2Proof.Machine
end

section
namespace Sys2Proof.Machine

/-! Tempering (R69) and the draw (R71), in natural numbers. -/

/-- R54: a word with its own right shift, the first and the last stage of tempering. -/
theorem xor_ushiftRight_toNat (y : U32) (n : Nat) : (y ^^^ (y >>> n)).toNat = y.toNat ^^^ y.toNat / 2 ^ n := by
  rw [BitVec.toNat_xor, BitVec.toNat_ushiftRight, Nat.shiftRight_eq_div_pow]

/-- R54: a word with its own masked left shift, the two stages between. -/
theorem xor_shiftLeft_and_toNat (y mask : U32) (n : Nat) :
    (y ^^^ ((y <<< n) &&& mask)).toNat = y.toNat ^^^ (2 ^ n * y.toNat % 2 ^ 32 &&& mask.toNat) := by
  rw [BitVec.toNat_xor, BitVec.toNat_and, BitVec.toNat_shiftLeft, Nat.shiftLeft_eq, Nat.mul_comm]

/-- Settles O30: each stage is one of the two forms above, on the word of the stage before. -/
theorem temperingStages : Obligations.TemperingStages := by
  unfold Obligations.TemperingStages
  refine ⟨fun y0 => ⟨_, _, _, rfl, rfl, rfl, ?_⟩, by decide⟩
  rw [temper, xor_ushiftRight_toNat, xor_shiftLeft_and_toNat, xor_shiftLeft_and_toNat, xor_ushiftRight_toNat]
  rfl

/-- Settles O31: each word is evaluated by `temper`. -/
theorem temperingVectorsOfTheSpec : Obligations.TemperingVectorsOfTheSpec :=
  ⟨rfl, rfl, rfl, rfl, rfl, rfl, rfl, rfl⟩

theorem index_eq_624 {s : State} (h : s.index.toNat = 624) : s.index = 624#10 :=
  BitVec.eq_of_toNat_eq h

/-- R71: a draw that finds `index` = `n` below 624 takes word `n` and leaves `n` + 1. -/
theorem draw_at {s : State} {n : Nat} (hn : n < 624) (hindex : s.index.toNat = n) :
    draw s = some (temper (s.mt.word ⟨n, hn⟩), { s with index := BitVec.ofNat 10 (n + 1) }) := by
  subst hindex
  rw [BitVec.ofNat_add, BitVec.ofNat_toNat, BitVec.setWidth_eq]
  exact draw_buffered hn

/-- R71: a draw answers nothing. -/
theorem draw_trace {s t : State} {r : U32} (h : draw s = some (r, t)) : t.trace = s.trace := by
  obtain ⟨-, -, -, -, htrace, -⟩ := draw_fields h
  exact htrace

/-- Settles O32: the two draws from a legal index (`draw_exhausted`, `draw_at`). -/
theorem drawTakesTheNextWord : Obligations.DrawTakesTheNextWord := by
  unfold Obligations.DrawTakesTheNextWord
  intro s hlegal
  obtain hlt | hfull := Nat.lt_or_eq_of_le hlegal
  · have hnext : (BitVec.ofNat 10 (s.index.toNat + 1)).toNat = s.index.toNat + 1 :=
      Nat.mod_eq_of_lt (show _ < 1024 by omega)
    exact ⟨_, _, draw_at hlt rfl, rfl, fun hfull => absurd hfull hlt.ne, fun _ => ⟨rfl, rfl, hnext⟩⟩
  · exact ⟨_, _, draw_exhausted (index_eq_624 hfull), rfl, fun _ => ⟨rfl, rfl, rfl⟩,
      fun hlt => absurd hfull hlt.ne⟩

/-- Settles O33: the draw from a legal index, answered with its word. -/
theorem nextWordCompletes : Obligations.NextWordCompletes := by
  unfold Obligations.NextWordCompletes
  refine ⟨decode_encode .nextU32, fun s hs => execNextU32_unseeded hs, fun s hs => ⟨fun hfull => ?_, fun hlt => ?_⟩⟩
  · exact execNextU32_of_draw hs (draw_exhausted (index_eq_624 hfull))
  · exact execNextU32_of_draw hs (draw_at hlt rfl)

end Sys2Proof.Machine
end

section
namespace Sys2Proof.Machine

/-! The double of two draws (R73, R74, R76): its numerator, and the three fields of its pattern. -/

/-- R73: the shifts of the two draws drop their low 5 and 6 bits. -/
theorem f64Numerator_eq (r1 r2 : U32) : f64Numerator r1 r2 = 2 ^ 26 * (r1.toNat / 2 ^ 5) + r2.toNat / 2 ^ 6 := by
  rw [f64Numerator, BitVec.toNat_ushiftRight, BitVec.toNat_ushiftRight, Nat.shiftRight_eq_div_pow,
    Nat.shiftRight_eq_div_pow]

/-- The high bits of a word are its quotient. -/
theorem extractLsb'_high_toNat (r : U32) {k : Nat} (hk : k ≤ 32) : (r.extractLsb' k (32 - k)).toNat = r.toNat / 2 ^ k := by
  have hlt : r.toNat / 2 ^ k < 2 ^ (32 - k) := by
    rw [Nat.div_lt_iff_lt_mul (Nat.two_pow_pos k), ← Nat.pow_add, Nat.sub_add_cancel hk]
    exact r.isLt
  rw [BitVec.extractLsb'_toNat, Nat.shiftRight_eq_div_pow, Nat.mod_eq_of_lt hlt]

/-- R73: `a` stands above the 26 bits of `b`. -/
theorem f64Numerator_eq_append (r1 r2 : U32) :
    f64Numerator r1 r2 = (r1.extractLsb' 5 27 ++ r2.extractLsb' 6 26).toNat := by
  have ha : (r1.extractLsb' 5 27).toNat = r1.toNat / 2 ^ 5 := extractLsb'_high_toNat r1 (by decide)
  have hb : (r2.extractLsb' 6 26).toNat = r2.toNat / 2 ^ 6 := extractLsb'_high_toNat r2 (by decide)
  rw [BitVec.toNat_append, ← Nat.shiftLeft_add_eq_or_of_lt (BitVec.isLt _), Nat.shiftLeft_eq, ha, hb, f64Numerator_eq,
    Nat.mul_comm]

/-- R73: the concatenation has 27 + 26 bits. -/
theorem f64Numerator_lt (r1 r2 : U32) : f64Numerator r1 r2 < 2 ^ 53 := by
  rw [f64Numerator_eq_append]
  exact BitVec.isLt _

/-- Settles O37: `f64Numerator_eq_append`, and the width of the concatenation (`f64Numerator_lt`). -/
theorem doubleNumeratorJoinsTheDraws : Obligations.DoubleNumeratorJoinsTheDraws :=
  fun r1 r2 => ⟨f64Numerator_eq_append r1 r2, f64Numerator_lt r1 r2⟩

theorem f64Bits_of_pos {n : Nat} (hn : 0 < n) : f64Bits n =
    0#1 ++ BitVec.ofNat 11 (970 + n.log2) ++ BitVec.ofNat 52 ((n - 2 ^ n.log2) * 2 ^ (52 - n.log2)) :=
  if_neg hn.ne'

/-- R74: the sign is 0. -/
theorem f64Bits_sign {n : Nat} (hn : 0 < n) : (f64Bits n).getLsbD 63 = false := by
  rw [f64Bits_of_pos hn, BitVec.getLsbD_append, BitVec.getLsbD_append]
  rfl

section
variable {n : Nat} (hpos : 0 < n) (hlt : n < 2 ^ 53)
include hpos hlt

theorem log2_le_52 : n.log2 ≤ 52 :=
  Nat.le_of_lt_succ ((Nat.log2_lt hpos.ne').mpr hlt)

/-- R74: `E` = 970 + `p`. -/
theorem f64Bits_exponent : ((f64Bits n).extractLsb' 52 11).toNat = 970 + n.log2 := by
  have hp := log2_le_52 hpos hlt
  rw [f64Bits_of_pos hpos, BitVec.extractLsb'_append_eq_of_le le_rfl, Nat.sub_self, BitVec.extractLsb'_append_eq_right,
    BitVec.toNat_ofNat, Nat.mod_eq_of_lt (by omega)]

/-- R74: `p` is 0 to 52, so `E` is 970 to 1022. -/
theorem f64Bits_exponent_range :
    970 ≤ ((f64Bits n).extractLsb' 52 11).toNat ∧ ((f64Bits n).extractLsb' 52 11).toNat ≤ 1022 := by
  have hp := log2_le_52 hpos hlt
  rw [f64Bits_exponent hpos hlt]
  omega

/-- R74: `F` = (`n` − 2^`p`) × 2^(52 − `p`), which fits its 52 bits as `n` is below 2^(`p` + 1). -/
theorem f64Bits_fraction :
    ((f64Bits n).extractLsb' 0 52).toNat = (n - 2 ^ n.log2) * 2 ^ (52 - n.log2) := by
  have hp := log2_le_52 hpos hlt
  have hfit : (n - 2 ^ n.log2) * 2 ^ (52 - n.log2) < 2 ^ 52 := by
    have hupper : n < 2 ^ n.log2 * 2 := Nat.lt_log2_self
    calc (n - 2 ^ n.log2) * 2 ^ (52 - n.log2) < 2 ^ n.log2 * 2 ^ (52 - n.log2) :=
          Nat.mul_lt_mul_of_pos_right (by omega) (Nat.two_pow_pos _)
      _ = 2 ^ 52 := by rw [← Nat.pow_add, Nat.add_sub_cancel' hp]
  rw [f64Bits_of_pos hpos, BitVec.extractLsb'_append_eq_right, BitVec.toNat_ofNat, Nat.mod_eq_of_lt hfit]

/-- R74: the significand with its leading 1, times the power of two of `E`, is `n` in units of 2^−52. -/
theorem f64Bits_value :
    (2 ^ 52 + ((f64Bits n).extractLsb' 0 52).toNat) * 2 ^ n.log2 = 2 ^ 52 * n := by
  have hp := log2_le_52 hpos hlt
  have hlower : 2 ^ n.log2 ≤ n := Nat.log2_self_le hpos.ne'
  have hpow : (2 : Nat) ^ 52 = 2 ^ n.log2 * 2 ^ (52 - n.log2) := by rw [← Nat.pow_add, Nat.add_sub_cancel' hp]
  rw [f64Bits_fraction hpos hlt, hpow, ← Nat.add_mul, Nat.add_sub_cancel' hlower]
  ring

end

/-- Settles O38: with `p` the binary logarithm of `n` the fields are `f64Bits_sign`, `f64Bits_exponent` and `f64Bits_fraction`,
and their value is `f64Bits_value`; the examples are evaluated. -/
theorem doubleBitsHaveTheExactValue : Obligations.DoubleBitsHaveTheExactValue := by
  unfold Obligations.DoubleBitsHaveTheExactValue
  refine ⟨rfl, fun n hpos hlt => ?_, by decide, by decide, by decide, by decide⟩
  obtain ⟨hlow, hhigh⟩ := f64Bits_exponent_range hpos hlt
  refine ⟨f64Bits_sign hpos, hlow, hhigh, ?_⟩
  rw [f64Bits_exponent hpos hlt, Nat.add_sub_cancel_left, show 970 + n.log2 - 969 = n.log2 + 1 by omega]
  exact ⟨Nat.log2_self_le hpos.ne', Nat.lt_log2_self, f64Bits_value hpos hlt⟩

/-- Settles O39: an answer `OK` is the pattern of a numerator below 2^53 (`f64Numerator_lt`), which is 0 or has the sign and the
exponent of O38. -/
theorem nextDoubleIsInTheUnitInterval : Obligations.NextDoubleIsInTheUnitInterval := by
  unfold Obligations.NextDoubleIsInTheUnitInterval
  intro s t d hexec htrace
  obtain ⟨-, rfl⟩ | ⟨-, r1, u, r2, v, hd1, hd2, rfl⟩ := execNextF64_cases hexec
  · simp [faultStatus] at htrace
  · obtain rfl : d = f64Bits (f64Numerator r1 r2) := by
      simpa [draw_trace hd1, draw_trace hd2, eq_comm] using htrace
    obtain hzero | hpos := Nat.eq_zero_or_pos (f64Numerator r1 r2)
    · exact .inl (by rw [hzero]; rfl)
    · exact .inr ⟨f64Bits_sign hpos, f64Bits_exponent_range hpos (f64Numerator_lt r1 r2)⟩

end Sys2Proof.Machine
end

section
namespace Sys2Proof.Machine

/-! `NEXT_F64` as two draws (R75, R77, R99). -/

/-- Settles O34: two draws from a legal index; where the index is 624 the first regenerates, where it is 623 the second. -/
theorem nextDoubleCompletes : Obligations.NextDoubleCompletes := by
  unfold Obligations.NextDoubleCompletes
  simp only [← f64Numerator_eq]
  refine ⟨decode_encode .nextF64, fun s hs => execNextF64_unseeded hs, fun s hs => ⟨fun hfull => ?_, fun hlast => ?_,
    fun hlt => ?_⟩⟩
  · exact execNextF64_of_draws hs (draw_exhausted (index_eq_624 hfull)) (draw_at (n := 1) (by decide) rfl)
  · exact execNextF64_of_draws hs (draw_at (by decide) hlast) (draw_exhausted rfl)
  · exact execNextF64_of_draws hs (draw_at _ rfl) (draw_at hlt (Nat.mod_eq_of_lt (show _ < 1024 by omega)))

/-- A draw neither reads nor writes the responses given. -/
theorem draw_respond (st : Status) (d : Data) (s : State) :
    draw (respond st d s) = (draw s).map (Prod.map id (respond st d)) := by
  obtain hlt | hfull | hgt := Nat.lt_trichotomy s.index.toNat 624
  · rw [draw_buffered hlt]
    exact draw_buffered (s := respond st d s) hlt
  · rw [draw_exhausted (index_eq_624 hfull)]
    exact draw_exhausted (s := respond st d s) (index_eq_624 hfull)
  · rw [draw_illFormed hgt]
    exact draw_illFormed (s := respond st d s) hgt

/-- R40: the word of a response is read back from its low 32 bits. -/
theorem zext64_injective : Function.Injective zext64 := fun r r' h => by
  simpa [zext64] using congrArg (BitVec.setWidth 32) h

/-- A `NEXT_U32` that answers `OK` with a word has drawn it. -/
theorem exists_draw_of_nextU32_ok {s t : State} {r : U32} (hexec : exec .nextU32 s = .next t)
    (htrace : t.trace = s.trace ++ [⟨.ok, zext64 r⟩]) :
    s.seeded = true ∧ ∃ u, draw s = some (r, u) ∧ t = respond .ok (zext64 r) u := by
  obtain ⟨-, rfl⟩ | ⟨hs, r', u, hd, rfl⟩ := execNextU32_cases hexec
  · simp [faultStatus] at htrace
  · obtain rfl : r' = r := zext64_injective (by simpa [draw_trace hd] using htrace)
    exact ⟨hs, u, hd, rfl⟩

/-- Settles O40: both words are drawn (`exists_draw_of_nextU32_ok`), and the second draw does not see the first response
(`draw_respond`), so they are the two draws of `NEXT_F64`. -/
theorem nextDoubleConsumesTwoWords : Obligations.NextDoubleConsumesTwoWords := by
  unfold Obligations.NextDoubleConsumesTwoWords
  intro s t u r1 r2 hexec1 hexec2 htrace
  obtain ⟨-, -, -, a, ha⟩ := exec_frame hexec1
  obtain ⟨-, -, -, b, hb⟩ := exec_frame hexec2
  obtain ⟨rfl, rfl⟩ : a = ⟨.ok, zext64 r1⟩ ∧ b = ⟨.ok, zext64 r2⟩ := by
    simpa [ha, hb] using htrace
  obtain ⟨hs, v, hd1, rfl⟩ := exists_draw_of_nextU32_ok hexec1 ha
  obtain ⟨-, w', hd2, rfl⟩ := exists_draw_of_nextU32_ok hexec2 hb
  rw [draw_respond] at hd2
  obtain ⟨⟨r, w⟩, hd, hw⟩ := Option.map_eq_some_iff.mp hd2
  obtain ⟨rfl, rfl⟩ := Prod.mk.inj hw
  have hout : w.trace = s.trace := (draw_trace hd).trans (draw_trace hd1)
  rw [← hout]
  exact execNextF64_of_draws hs hd1 hd

end Sys2Proof.Machine
end

section
namespace Sys2Proof.Machine

/-! The three errors (R81 to R83): the cause of each, read off the `STATUS` a command answers. -/

/-- R44: a word of none of the four commands is reserved. -/
theorem exists_decode_error {cw : CmdWord}
    (h : cw.toNat / 2 ^ 32 = 0 ∨ 5 ≤ cw.toNat / 2 ^ 32 ∨
      ((cw.toNat / 2 ^ 32 = 3 ∨ cw.toNat / 2 ^ 32 = 4) ∧ cw.toNat % 2 ^ 32 ≠ 0)) :
    ∃ e, decode cw = .error e := by
  have hnone : (decode cw).toOption = none := by
    rw [decodeIsTheFunctionOfOpcodeAndArgument cw, if_neg (by omega), if_neg (by omega), if_neg (by omega),
      if_neg (by omega)]
  cases hd : decode cw with
  | error e => exact ⟨e, rfl⟩
  | ok i =>
    rw [hd] at hnone
    cases hnone

/-- R44, R81: a reserved word is accepted by raising `ERR_ILLEGAL`. -/
theorem acceptCommand_of_decode_error {cw : CmdWord} {e : Reserved} (h : decode cw = .error e) (s : State) :
    acceptCommand cw s = .next (raise .errIllegal s) := by
  simp only [acceptCommand, h]

/-- R82, R83: the two checks of a command, and where each is for an error. -/
theorem commandStatus_cases (s : State) (i : Instr) :
    commandStatus s i = .ok ∨
    (commandStatus s i = .errEmptyKey ∧ i = .seedArray 0#32) ∨
    (commandStatus s i = .errUnseeded ∧ s.seeded = false ∧ (i = .nextU32 ∨ i = .nextF64)) := by
  cases i with
  | seedScalar seed => exact .inl rfl
  | seedArray len =>
    by_cases hlen : len = 0#32
    · exact .inr (.inl ⟨if_pos hlen, hlen ▸ rfl⟩)
    · exact .inl (if_neg hlen)
  | nextU32 => cases hs : s.seeded <;> simp [commandStatus, hs]
  | nextF64 => cases hs : s.seeded <;> simp [commandStatus, hs]

/-- R87: the one response of a command has the status of the command's check. -/
theorem status_eq_commandStatus {i : Instr} {s t : State} {r : Response} (hexec : exec i s = .next t)
    (htrace : t.trace = s.trace ++ [r]) : r.status = commandStatus s i := by
  obtain ⟨r', htrace', hr'⟩ := exec_response hexec
  obtain rfl : r' = r := by simpa using htrace'.symm.trans htrace
  exact hr'.status

/-- R85: a command whose check is for an error answers that error, and that is all it does. -/
theorem exec_of_commandStatus_ne_ok {i : Instr} {s : State} (h : commandStatus s i ≠ .ok) :
    exec i s = .next (respond (commandStatus s i) 0#64 s) := by
  obtain hok | ⟨hst, rfl⟩ | ⟨hst, hs, hi⟩ := commandStatus_cases s i
  · exact absurd hok h
  · rw [hst]
    exact execSeedArray_empty s
  · rw [hst]
    exact exec_extraction_unseeded hi hs

/-- Settles O7: such a word is reserved (`exists_decode_error`), and no command's check is for `ERR_ILLEGAL`
(`commandStatus_cases`). -/
theorem reservedWordsAnswerErrIllegal : Obligations.ReservedWordsAnswerErrIllegal := by
  unfold Obligations.ReservedWordsAnswerErrIllegal
  refine ⟨rfl, fun s cw rest hinputs hcw => ?_, fun i s t d hexec htrace => ?_⟩
  · obtain ⟨e, he⟩ := exists_decode_error hcw
    rw [step_command hinputs]
    exact acceptCommand_of_decode_error he _
  · have hst := status_eq_commandStatus hexec htrace
    obtain h | ⟨h, -⟩ | ⟨h, -⟩ := commandStatus_cases s i <;> cases hst.trans h

/-- Settles O22: of the checks of `commandStatus_cases` that for `ERR_EMPTY_KEY` is the one of a key of no words. -/
theorem emptyKeyIsRejected : Obligations.EmptyKeyIsRejected := by
  unfold Obligations.EmptyKeyIsRejected
  refine ⟨rfl, execSeedArray_empty, fun i s t d hexec htrace => ?_⟩
  have hst := status_eq_commandStatus hexec htrace
  obtain h | ⟨-, hi⟩ | ⟨h, -⟩ := commandStatus_cases s i
  · cases hst.trans h
  · exact hi
  · cases hst.trans h

/-- Settles O35: of the checks of `commandStatus_cases` that for `ERR_UNSEEDED` is the one of an extraction. -/
theorem unseededExtractionIsRefused : Obligations.UnseededExtractionIsRefused := by
  unfold Obligations.UnseededExtractionIsRefused
  refine ⟨rfl, fun s hs => ⟨exec_extraction_unseeded (.inl rfl) hs, exec_extraction_unseeded (.inr rfl) hs⟩,
    fun i s t d hexec htrace => ?_⟩
  have hst := status_eq_commandStatus hexec htrace
  obtain h | ⟨h, -⟩ | ⟨-, hcause⟩ := commandStatus_cases s i
  · cases hst.trans h
  · cases hst.trans h
  · exact hcause

/-- R85: a command word that is answered with an error has no effect but that response. -/
theorem acceptCommand_of_error_response {cw : CmdWord} {s t : State} {r : Response}
    (hcmd : acceptCommand cw s = .next t) (htrace : t.trace = s.trace ++ [r]) (hr : r.status ≠ .ok) :
    t = respond r.status 0#64 s := by
  obtain ⟨e, -, rfl⟩ | ⟨i, -, hexec⟩ := acceptCommand_cases hcmd
  · obtain rfl : ⟨faultStatus .errIllegal, 0#64⟩ = r := by simpa using htrace
    rfl
  · have hst := status_eq_commandStatus hexec htrace
    have herror := exec_of_commandStatus_ne_ok (hst ▸ hr)
    rw [hst]
    exact Host.Outcome.next.inj (hexec.symm.trans herror)

/-- Settles O42: the step accepts the word on the state with the input taken off. -/
theorem errorResponsesChangeNothing : Obligations.ErrorResponsesChangeNothing := by
  unfold Obligations.ErrorResponsesChangeNothing
  intro s t cw rest r hinputs hstep htrace hr
  rw [step_command hinputs] at hstep
  exact acceptCommand_of_error_response hstep htrace hr

/-- Settles O50: `step_completes`. -/
theorem everyStepFromALegalIndexCompletes : Obligations.EveryStepFromALegalIndexCompletes :=
  fun _ hlegal => step_completes hlegal

end Sys2Proof.Machine
end

section
namespace Sys2Proof.Machine

open Sys2Proof.Safety

/-! The strict step (R85, last sentence) against the step: where the step answers a next state, the strict step reads the
response that the step gave. -/

/-- R84: a command raises its error as a next state, so no command ends in a fault. -/
theorem exec_ne_fault (i : Instr) (s : State) (e : Fault) : exec i s ≠ .fault e := by
  cases i with
  | seedScalar seed => exact nofun
  | seedArray len =>
    show execSeedArray len s ≠ _
    unfold execSeedArray
    split <;> exact nofun
  | nextU32 =>
    show execNextU32 s ≠ _
    unfold execNextU32
    split
    · exact nofun
    · split <;> exact nofun
  | nextF64 =>
    show execNextF64 s ≠ _
    unfold execNextF64
    split
    · exact nofun
    · split
      · exact nofun
      · split <;> exact nofun

/-- R84: no step ends in a fault. -/
theorem step_ne_fault (s : State) (e : Fault) : step s ≠ .fault e := by
  cases hin : s.inputs with
  | nil =>
    rw [step_of_no_input hin]
    exact nofun
  | cons x rest =>
    rw [step_of_input hin]
    cases x with
    | command cw =>
      show acceptCommand cw _ ≠ _
      unfold acceptCommand
      split
      · exact exec_ne_fault _ _ e
      · exact nofun
    | key words => exact nofun
    | keyWord j w => exact nofun
    | reset => exact nofun

/-- R40, R92: a step gives no response, or one, whose `DATA` is 0 where it is an error. -/
theorem step_trace_cases {s t : State} (h : step s = .next t) :
    t.trace = s.trace ∨ ∃ r, t.trace = s.trace ++ [r] ∧ (r.status ≠ .ok → r.data = 0#64) := by
  obtain ⟨-, rfl⟩ | ⟨cw, rest, hinputs, -⟩ | ⟨ws, rest, -, rfl⟩ | ⟨j, w, rest, -, rfl⟩ | ⟨rest, -, rfl⟩ := step_cases h
  · exact .inl rfl
  · obtain ⟨r, htrace, -, hdata, -⟩ := exactlyOneResponsePerCommand s t cw rest hinputs h
    exact .inr ⟨r, htrace, hdata⟩
  · exact .inl rfl
  · exact .inl rfl
  · exact .inl rfl

/-- The new response of a step is the one it added to the record. -/
theorem newResponse_eq_some_iff {s t : State} (h : step s = .next t) {r : Response} :
    newResponse s t = some r ↔ t.trace = s.trace ++ [r] := by
  obtain htrace | ⟨r', htrace, -⟩ := step_trace_cases h <;> simp [newResponse, htrace]

/-- R41: the error a status stands for is the one that has this status. -/
theorem errorOf_eq_some_iff {st : Status} {e : Fault} : errorOf st = some e ↔ st = faultStatus e := by
  cases st <;> cases e <;> decide

/-- No error has the status `OK` (R84). -/
theorem faultStatus_ne_ok (e : Fault) : faultStatus e ≠ .ok := by
  cases e <;> decide

/-- R85: the strict step where the step answers a next state. -/
theorem strictStep_of_next {s t : State} (h : step s = .next t) :
    strictStep s = ((newResponse s t).bind fun r => errorOf r.status).elim (.next t) .fault := by
  unfold strictStep
  rw [h]
  cases hresp : (newResponse s t).bind fun r => errorOf r.status <;> simp [hresp]

/-- R85: where the step answers a next state, the strict step is a fault exactly when the response given has its status. -/
theorem strictStep_eq_fault_iff_of_next {s t : State} (h : step s = .next t) {e : Fault} :
    strictStep s = .fault e ↔ ∃ r, t.trace = s.trace ++ [r] ∧ r.status = faultStatus e := by
  have hbind : strictStep s = .fault e ↔ ((newResponse s t).bind fun r => errorOf r.status) = some e := by
    rw [strictStep_of_next h]
    cases (newResponse s t).bind fun r => errorOf r.status <;> simp
  simp only [hbind, Option.bind_eq_some_iff, newResponse_eq_some_iff h, errorOf_eq_some_iff]

/-- R85: an error response of a step has `DATA` 0, so it is known by its status. -/
theorem exists_error_response_iff {s t : State} (h : step s = .next t) {e : Fault} :
    (∃ r, t.trace = s.trace ++ [r] ∧ r.status = faultStatus e) ↔ t.trace = s.trace ++ [⟨faultStatus e, 0#64⟩] := by
  constructor
  · rintro ⟨⟨st, d⟩, htrace, rfl⟩
    obtain hsame | ⟨r, htrace', hdata⟩ := step_trace_cases h
    · simp [hsame] at htrace
    · obtain rfl : r = ⟨faultStatus e, d⟩ := by simpa using htrace'.symm.trans htrace
      obtain rfl : d = 0#64 := hdata (faultStatus_ne_ok e)
      exact htrace
  · exact fun htrace => ⟨_, htrace, rfl⟩

/-- Settles O52: `strictStep_eq_fault_iff_of_next` where the step answers a next state; a refusal is neither a fault nor a next
state of either step, and the step itself never ends in a fault (`step_ne_fault`). -/
theorem strictStepFaultsOnErrorResponses : Obligations.StrictStepFaultsOnErrorResponses := by
  unfold Obligations.StrictStepFaultsOnErrorResponses
  constructor
  · intro s e
    cases hstep : step s with
    | next t =>
      rw [strictStep_eq_fault_iff_of_next hstep, exists_error_response_iff hstep]
      simp
    | fault e' => exact absurd hstep (step_ne_fault s e')
    | refused r => simp [strictStep, hstep]
  · intro s t hstrict
    cases hstep : step s with
    | next u =>
      rw [strictStep_of_next hstep] at hstrict
      cases hresp : (newResponse s u).bind fun r => errorOf r.status with
      | none => simpa [hresp] using hstrict
      | some e => simp [hresp] at hstrict
    | fault e => exact absurd hstep (step_ne_fault s e)
    | refused r => simp [strictStep, hstep] at hstrict

end Sys2Proof.Machine
end

section
namespace Sys2Proof.Machine

/-! What the block does with an input that is no command (R92, R93, R96). -/

/-- Settles O10: of the five cases of a step (`step_cases`), a command and a reset are shut out by the next input, and in the
other three the new state differs from the old at most in the KEY space and in the inputs. -/
theorem onlyCommandsAndResetsChangeTheBlock : Obligations.OnlyCommandsAndResetsChangeTheBlock := by
  unfold Obligations.OnlyCommandsAndResetsChangeTheBlock
  intro s t hstep hnocmd hnoreset
  obtain ⟨-, rfl⟩ | ⟨cw, rest, hinputs, -⟩ | ⟨ws, rest, -, rfl⟩ | ⟨j, w, rest, -, rfl⟩ | ⟨rest, hinputs, -⟩ :=
    step_cases hstep
  · exact ⟨rfl, rfl, rfl, rfl, rfl, rfl⟩
  · exact absurd (congrArg List.head? hinputs) (hnocmd cw)
  · exact ⟨rfl, rfl, rfl, rfl, rfl, rfl⟩
  · exact ⟨rfl, rfl, rfl, rfl, rfl, rfl⟩
  · exact absurd (congrArg List.head? hinputs) hnoreset

/-- Settles O8: a step with no input is `step_of_no_input`. -/
theorem blockHoldsItsStateBetweenCommands : Obligations.BlockHoldsItsStateBetweenCommands :=
  fun _ hinputs => step_of_no_input hinputs

/-- Settles O9: the step resets (`step_reset`); the vector and the index it leaves are those of the reset numbered by the
counter. -/
theorem resetClearsSeeded : Obligations.ResetClearsSeeded :=
  fun s _ hinputs => ⟨resetMt s.resets, Config.resetIndex s.resets, step_reset hinputs⟩

end Sys2Proof.Machine
end
